-- ==== Sys2Proof/Word.lean ====
section
/-! DEFINITION. The byte, the one data type of the machine (00_scope.md R8, R11). -/

namespace Sys2Proof

/-- A byte: the width of every register, of the bus and of every memory cell (00_scope.md R8). -/
abbrev Byte := BitVec 8

end Sys2Proof
end

