-- ==== Sys2Proof/Machine/Flags.lean ====
section
/-! DEFINITION. The ALU and its flags (42_alu.md R150 to R153, R158), computed in unbounded integers and then truncated
(00_scope.md R11). -/

namespace Sys2Proof.Machine

/-- `trunc8(v) = v mod 256` with the non-negative remainder (00_scope.md R11). -/
def trunc8 (v : Int) : Byte := BitVec.ofNat 8 (v % 256).toNat

/-- `aluRaw`: the untruncated result (42_alu.md R150). -/
def aluRaw (a b : Byte) (neg : Bool) : Int :=
  if neg then (a.toNat : Int) - (b.toNat : Int) else (a.toNat : Int) + (b.toNat : Int)

/-- `aluValue`: the ALU output (42_alu.md R150). -/
def aluValue (a b : Byte) (neg : Bool) : Byte := trunc8 (aluRaw a b neg)

/-- `aluOverflow`: the untruncated result is outside 0..255 (42_alu.md R151). -/
def aluOverflow (a b : Byte) (neg : Bool) : Bool :=
  !(decide (0 ≤ aluRaw a b neg) && decide (aluRaw a b neg ≤ 255))

/-- `aluZero`: the truncated result is 0 (42_alu.md R152). -/
def aluZero (a b : Byte) (neg : Bool) : Bool :=
  aluValue a b neg == 0#8

end Sys2Proof.Machine
end

