-- ==== Sys2Proof/Config.lean ====
section
/-! DEFINITION. The parameters that the spec leaves to a configuration (00_scope.md R9, 10_state.md R44), and the one free
value of the machine (10_state.md R29). The values the core runs with stand in Machine/Parameters.lean. -/

namespace Sys2Proof.Config

/-- `INVALID_OPCODE_POLICY`: what the sequencer does with opcodes 11 to 14 (00_scope.md R9, 40_sequencer.md R113). -/
inductive InvalidOpcodePolicy where
  | inert
  | fault
  deriving DecidableEq, Repr

/-- The named parameters of 00_scope.md R9, fixed for a whole run. -/
structure Params where
  /-- `IO_BASE`, the first RAM address of the mirrored window; R9 requires `IO_BASE + 128 ≤ 256`. -/
  ioBase : Fin 129
  /-- `MMIO_ACTIVE`, the source's `memoryMappedIOActive` flag. -/
  mmioActive : Bool
  /-- `INVALID_OPCODE_POLICY`. -/
  invalidOpcode : InvalidOpcodePolicy
  deriving DecidableEq, Repr

/-- The level of the clock after the `n`-th tick: 10_state.md R29 says it is any Boolean, so it has no body.
DESIGN CHOICE (log 3), safe: nothing can be proved of its value. -/
opaque clockLevelDraw : Nat → Bool

end Sys2Proof.Config
end

