-- ==== Sys2Proof/Machine/Parameters.lean ====
section
/-! DEFINITION. The parameter values the core runs with: the spec's defaults (00_scope.md R9). -/

namespace Sys2Proof.Machine

/-- The defaults of 00_scope.md R9 (decisions D10, D12). DESIGN CHOICE (log 1, log 2), unsafe: the spec leaves these
values open and gives the defaults; what depends on them is defined for every `Config.Params`. -/
def params : Config.Params where
  ioBase := 128
  mmioActive := true
  invalidOpcode := .inert

end Sys2Proof.Machine
end

