-- ==== Sys2Proof/Syntax.lean ====
section
/-! DEFINITION. The twelve instructions (30_encoding.md R83, R84), their operand fields, and the spec's own record form of
an instruction (30_encoding.md R88). -/

namespace Sys2Proof

/-- The four general registers (10_state.md R21). -/
inductive Reg where
  | r1 | r2 | r3 | r4
  deriving DecidableEq, Repr

/-- The condition field (30_encoding.md R86). -/
inductive Cond where
  | noCondition
  | aluOverflow
  deriving DecidableEq, Repr

/-- The closed set of operations (30_encoding.md R83). -/
inductive Operation where
  | noOp | store | load | loadImmediate | add | addImmediate | sub | subImmediate
  | jump | jumpImmediate | out | halt
  deriving DecidableEq, Repr

/-- An instruction with exactly the operands 30_encoding.md R84 gives its operation: one constructor per row of
opcode_table.json. -/
inductive Instr where
  /-- `noOp` (41_transfer.md R130). -/
  | noOp (c : Cond)
  /-- `store rN, [a]` (41_transfer.md R131). -/
  | store (r : Reg) (c : Cond) (a : Byte)
  /-- `load rN, [a]` (41_transfer.md R132). -/
  | load (r : Reg) (c : Cond) (a : Byte)
  /-- `loadImmediate rN, #v` (41_transfer.md R133). -/
  | loadImmediate (r : Reg) (c : Cond) (v : Byte)
  /-- `add [a]` (42_alu.md R154). -/
  | add (c : Cond) (a : Byte)
  /-- `addImmediate #v` (42_alu.md R155). -/
  | addImmediate (c : Cond) (v : Byte)
  /-- `sub [a]` (42_alu.md R156). -/
  | sub (c : Cond) (a : Byte)
  /-- `subImmediate #v` (42_alu.md R157). -/
  | subImmediate (c : Cond) (v : Byte)
  /-- `jump [a]` (43_control_output.md R170). -/
  | jump (c : Cond) (a : Byte)
  /-- `jumpImmediate #t` (43_control_output.md R171). -/
  | jumpImmediate (c : Cond) (t : Byte)
  /-- `out rN` (43_control_output.md R172). -/
  | out (r : Reg) (c : Cond)
  /-- `halt` (43_control_output.md R173). -/
  | halt (c : Cond)
  deriving DecidableEq, Repr

/-- The spec's `{operation, register?, condition, payload?}` (30_encoding.md R88); an absent payload is 0 (R82). -/
structure InstrRecord where
  operation : Operation
  register : Option Reg
  condition : Cond
  payload : Byte
  deriving DecidableEq, Repr

/-- A program: an ordered, flat sequence of instructions (30_encoding.md R93, 70_reset_and_hazards.md R220). -/
abbrev Program := List Instr

/-- The operation of an instruction. -/
def Instr.operation : Instr → Operation
  | .noOp _ => .noOp
  | .store _ _ _ => .store
  | .load _ _ _ => .load
  | .loadImmediate _ _ _ => .loadImmediate
  | .add _ _ => .add
  | .addImmediate _ _ => .addImmediate
  | .sub _ _ => .sub
  | .subImmediate _ _ => .subImmediate
  | .jump _ _ => .jump
  | .jumpImmediate _ _ => .jumpImmediate
  | .out _ _ => .out
  | .halt _ => .halt

/-- The condition of an instruction: every instruction has one (30_encoding.md R84). -/
def Instr.condition : Instr → Cond
  | .noOp c => c
  | .store _ c _ => c
  | .load _ c _ => c
  | .loadImmediate _ c _ => c
  | .add c _ => c
  | .addImmediate c _ => c
  | .sub c _ => c
  | .subImmediate c _ => c
  | .jump c _ => c
  | .jumpImmediate c _ => c
  | .out _ c => c
  | .halt c => c

/-- The register operand, present exactly for the four transfer operations (30_encoding.md R84). -/
def Instr.register : Instr → Option Reg
  | .noOp _ => none
  | .store r _ _ => some r
  | .load r _ _ => some r
  | .loadImmediate r _ _ => some r
  | .add _ _ => none
  | .addImmediate _ _ => none
  | .sub _ _ => none
  | .subImmediate _ _ => none
  | .jump _ _ => none
  | .jumpImmediate _ _ => none
  | .out r _ => some r
  | .halt _ => none

/-- The payload byte, 0 for the three one-byte forms (30_encoding.md R82, R84). -/
def Instr.payload : Instr → Byte
  | .noOp _ => 0#8
  | .store _ _ a => a
  | .load _ _ a => a
  | .loadImmediate _ _ v => v
  | .add _ a => a
  | .addImmediate _ v => v
  | .sub _ a => a
  | .subImmediate _ v => v
  | .jump _ a => a
  | .jumpImmediate _ t => t
  | .out _ _ => 0#8
  | .halt _ => 0#8

/-- An instruction in the spec's record form (30_encoding.md R88). -/
def Instr.toRecord (i : Instr) : InstrRecord :=
  { operation := i.operation, register := i.register, condition := i.condition, payload := i.payload }

end Sys2Proof
end

