-- ==== Sys2Proof/Machine/Lines.lean ====
section
/-! DEFINITION. The 24 control lines (10_state.md R36), their classes (R37), and the packed control word (R38). -/

namespace Sys2Proof.Machine

/-- The control lines, in the pin order of 10_state.md R36. -/
inductive Line where
  | reg1In | reg1Out | reg2In | reg2Out | reg3In | reg3Out | reg4In | reg4Out
  | romAddressIn | romValueOut | romBankBit9
  | ramAddressIn | ramValueIn | ramValueOut
  | pcIn | pcOut | pcIncrement
  | aluNegate | aluOut | aluSetFlags
  | instructionRegisterIn | decimalOutputIn | halt | line24
  deriving DecidableEq, Repr

/-- The classes of 10_state.md R37. -/
inductive LineClass where
  | input
  | output
  | modifier
  deriving DecidableEq, Repr

/-- Whether each of the 24 lines is asserted (10_state.md R36: "All 24 lines must be represented in every snapshot"). -/
structure Lines where
  reg1In : Bool := false
  reg1Out : Bool := false
  reg2In : Bool := false
  reg2Out : Bool := false
  reg3In : Bool := false
  reg3Out : Bool := false
  reg4In : Bool := false
  reg4Out : Bool := false
  romAddressIn : Bool := false
  romValueOut : Bool := false
  romBankBit9 : Bool := false
  ramAddressIn : Bool := false
  ramValueIn : Bool := false
  ramValueOut : Bool := false
  pcIn : Bool := false
  pcOut : Bool := false
  pcIncrement : Bool := false
  aluNegate : Bool := false
  aluOut : Bool := false
  aluSetFlags : Bool := false
  instructionRegisterIn : Bool := false
  decimalOutputIn : Bool := false
  halt : Bool := false
  line24 : Bool := false
  deriving DecidableEq, Repr

/-- No line asserted. -/
def Lines.off : Lines := {}

/-- `line(L)`: is the line asserted (00_scope.md R12)? -/
def Lines.get (ls : Lines) : Line → Bool
  | .reg1In => ls.reg1In
  | .reg1Out => ls.reg1Out
  | .reg2In => ls.reg2In
  | .reg2Out => ls.reg2Out
  | .reg3In => ls.reg3In
  | .reg3Out => ls.reg3Out
  | .reg4In => ls.reg4In
  | .reg4Out => ls.reg4Out
  | .romAddressIn => ls.romAddressIn
  | .romValueOut => ls.romValueOut
  | .romBankBit9 => ls.romBankBit9
  | .ramAddressIn => ls.ramAddressIn
  | .ramValueIn => ls.ramValueIn
  | .ramValueOut => ls.ramValueOut
  | .pcIn => ls.pcIn
  | .pcOut => ls.pcOut
  | .pcIncrement => ls.pcIncrement
  | .aluNegate => ls.aluNegate
  | .aluOut => ls.aluOut
  | .aluSetFlags => ls.aluSetFlags
  | .instructionRegisterIn => ls.instructionRegisterIn
  | .decimalOutputIn => ls.decimalOutputIn
  | .halt => ls.halt
  | .line24 => ls.line24

/-- `reg<r+1>In` asserted as well (40_sequencer.md R102). -/
def Lines.withRegIn (ls : Lines) : Reg → Lines
  | .r1 => { ls with reg1In := true }
  | .r2 => { ls with reg2In := true }
  | .r3 => { ls with reg3In := true }
  | .r4 => { ls with reg4In := true }

/-- `reg<r+1>Out` asserted as well (40_sequencer.md R102). -/
def Lines.withRegOut (ls : Lines) : Reg → Lines
  | .r1 => { ls with reg1Out := true }
  | .r2 => { ls with reg2Out := true }
  | .r3 => { ls with reg3Out := true }
  | .r4 => { ls with reg4Out := true }

/-- The class of a line (10_state.md R37, decision D14). -/
def Line.lineClass : Line → LineClass
  | .reg1In => .input
  | .reg2In => .input
  | .reg3In => .input
  | .reg4In => .input
  | .romAddressIn => .input
  | .ramAddressIn => .input
  | .ramValueIn => .input
  | .pcIn => .input
  | .instructionRegisterIn => .input
  | .decimalOutputIn => .input
  | .reg1Out => .output
  | .reg2Out => .output
  | .reg3Out => .output
  | .reg4Out => .output
  | .romValueOut => .output
  | .ramValueOut => .output
  | .pcOut => .output
  | .aluOut => .output
  | .romBankBit9 => .modifier
  | .pcIncrement => .modifier
  | .aluNegate => .modifier
  | .aluSetFlags => .modifier
  | .halt => .modifier
  | .line24 => .modifier

/-- The source's predicate `isInputLine` (10_state.md R37). -/
def Line.isInputLine (l : Line) : Bool := l.lineClass == .input

/-- The source's predicate `isOutputLine` (10_state.md R37). -/
def Line.isOutputLine (l : Line) : Bool := l.lineClass == .output

/-- The pin of a line, 1 to 24 (10_state.md R36, R38, decision D13; log 7). -/
def Line.pin : Line → Nat
  | .reg1In => 1
  | .reg1Out => 2
  | .reg2In => 3
  | .reg2Out => 4
  | .reg3In => 5
  | .reg3Out => 6
  | .reg4In => 7
  | .reg4Out => 8
  | .romAddressIn => 9
  | .romValueOut => 10
  | .romBankBit9 => 11
  | .ramAddressIn => 12
  | .ramValueIn => 13
  | .ramValueOut => 14
  | .pcIn => 15
  | .pcOut => 16
  | .pcIncrement => 17
  | .aluNegate => 18
  | .aluOut => 19
  | .aluSetFlags => 20
  | .instructionRegisterIn => 21
  | .decimalOutputIn => 22
  | .halt => 23
  | .line24 => 24

/-- The 24 lines, by rising pin. -/
def allLines : List Line :=
  [.reg1In, .reg1Out, .reg2In, .reg2Out, .reg3In, .reg3Out, .reg4In, .reg4Out,
   .romAddressIn, .romValueOut, .romBankBit9, .ramAddressIn, .ramValueIn, .ramValueOut,
   .pcIn, .pcOut, .pcIncrement, .aluNegate, .aluOut, .aluSetFlags,
   .instructionRegisterIn, .decimalOutputIn, .halt, .line24]

/-- `mask(line) = 1 << (24 − pin)` (10_state.md R38). -/
def Line.mask (l : Line) : BitVec 24 := 1#24 <<< (24 - l.pin)

/-- The asserted lines: the snapshot's "list of currently-asserted control lines" (60_exceptions.md R211). -/
def Lines.asserted (ls : Lines) : List Line := allLines.filter ls.get

/-- The packed control word: the bitwise OR of the masks of the asserted lines (10_state.md R38). -/
def Lines.controlWord (ls : Lines) : BitVec 24 :=
  ls.asserted.foldr (fun l w => l.mask ||| w) 0#24

end Sys2Proof.Machine
end

