-- ==== Sys2Proof/Machine/Memory.lean ====
section
/-! DEFINITION. A memory as a list of (address, byte) cells in one canonical form, used for ROM, RAM and the IO array
(20_memory.md R61, R64, R65). -/

namespace Sys2Proof.Machine

/-- The listed cells of one address space. -/
structure Memory where
  cells : List Host.Cell
  deriving DecidableEq, Repr

/-- A memory that lists nothing. -/
def Memory.empty : Memory := ⟨[]⟩

/-- What an address that is not listed reads as: 0, the value of RAM, of IO and of unused ROM after `load`
(70_reset_and_hazards.md R221, 20_memory.md R63). -/
def Memory.unlisted : Byte := 0#8

/-- The byte listed for an address, or the unlisted value. -/
def lookupCell (a : Nat) : List Host.Cell → Byte
  | [] => Memory.unlisted
  | (b, w) :: m => if b = a then w else lookupCell a m

/-- The cells with one more, placed before the first larger address. -/
def insertCell (a : Nat) (v : Byte) : List Host.Cell → List Host.Cell
  | [] => [(a, v)]
  | (b, w) :: m => if a < b then (a, v) :: (b, w) :: m else (b, w) :: insertCell a v m

/-- The cells without those of one address. -/
def dropCell (a : Nat) : List Host.Cell → List Host.Cell
  | [] => []
  | (b, w) :: m => if b = a then dropCell a m else (b, w) :: dropCell a m

/-- The byte at an address. -/
def Memory.read (m : Memory) (a : Nat) : Byte :=
  lookupCell a m.cells

/-- The memory with one byte written; writing the unlisted value lists nothing for the address. -/
def Memory.write (m : Memory) (a : Nat) (v : Byte) : Memory :=
  if v = Memory.unlisted then ⟨dropCell a m.cells⟩ else ⟨insertCell a v (dropCell a m.cells)⟩

/-- The canonical form: addresses strictly rise, and no cell lists the unlisted value. -/
abbrev Memory.wf (m : Memory) : Prop :=
  m.cells.Pairwise (fun c d => c.1 < d.1) ∧ ∀ c ∈ m.cells, c.2 ≠ Memory.unlisted

/-- Every listed address is below the size of the address space. -/
abbrev Memory.within (m : Memory) (size : Nat) : Prop :=
  ∀ c ∈ m.cells, c.1 < size

end Sys2Proof.Machine
end

