-- ==== Sys2Proof/Machine/State.lean ====
section
/-! DEFINITION. The state of the machine (10_state.md R20), why a step can stop, and the state after reset
(70_reset_and_hazards.md R221). -/

namespace Sys2Proof.Machine

/-- The six values of the step counter (10_state.md R27). -/
inductive MicroStep where
  | s0 | s1 | s2 | s3 | s4 | s5
  deriving DecidableEq, Repr

/-- The state: exactly the components of 10_state.md R20, and `draws`, which is the model's own. -/
structure State where
  /-- The halted flag (R28). -/
  finished : Bool
  /-- The clock level (R29); free after every tick. -/
  clockLevel : Bool
  /-- General register r1, the spec's `x[0]`: the accumulator (R21, R23). -/
  r1 : Byte
  /-- General register r2, `x[1]`: the implicit second ALU operand (R21, R23). -/
  r2 : Byte
  /-- General register r3, `x[2]` (R21). -/
  r3 : Byte
  /-- General register r4, `x[3]` (R21). -/
  r4 : Byte
  /-- The program counter (R25). -/
  pc : Byte
  /-- The instruction register, the upper byte of the current instruction (R26). -/
  ir : Byte
  /-- The step counter, the spec's `step` (R27). -/
  stepCounter : MicroStep
  /-- The decimal-output register (R30). -/
  dec : Byte
  /-- The latched overflow flag (R31). -/
  overflow : Bool
  /-- The latched zero flag (R32). -/
  zero : Bool
  /-- RAM, addresses 0 to 255 (20_memory.md R64). -/
  ram : Memory
  /-- The RAM address register (R33). -/
  ramAddr : Byte
  /-- ROM, addresses 0 to 511 (20_memory.md R61). -/
  rom : Memory
  /-- The ROM address register (R34). -/
  romAddr : Byte
  /-- The IO array, indices 0 to 127 (20_memory.md R65). -/
  io : Memory
  /-- The IO address register, 0 to 127 (R35). -/
  ioAddr : BitVec 7
  /-- The control lines asserted in the most recent tick (R36). -/
  lines : Lines
  /-- The MODEL's own counter of the free values of `clockLevel` drawn so far (log 3). -/
  draws : Nat
  deriving DecidableEq, Repr

/-- Why the machine stops with a fault. -/
inductive Fault where
  /-- The fault "invalid opcode at ROM index `romIndex`" of 40_sequencer.md R113. Raised by the tick at step 2 of an
  opcode 11 to 14, only where the parameter `INVALID_OPCODE_POLICY` is `fault`. Safe: it stops where the other policy
  goes on. -/
  | invalidOpcode (romIndex : Byte)
  deriving DecidableEq, Repr

/-- What the machine refuses. -/
inductive Refusal where
  /-- An instruction without a meaning. Raised by no arm: every instruction has its meaning. Safe. -/
  | notModelled (mnemonic : String)
  /-- The host's `load` of a program of more than 256 instructions (70_reset_and_hazards.md R222). Raised by `hostLoad`.
  Safe: the spec refuses it too. -/
  | programTooLong
  deriving DecidableEq, Repr

/-- The machine right after reset: the values of 70_reset_and_hazards.md R221, with the ROM image of the program of 0
instructions, which R222 accepts (log 5). `draws` is the model's own and starts at 0 (DESIGN CHOICE, log 3). -/
def State.reset : State where
  finished := false
  clockLevel := false
  r1 := 0#8
  r2 := 0#8
  r3 := 0#8
  r4 := 0#8
  pc := 0#8
  ir := 0#8
  stepCounter := .s0
  dec := 0#8
  overflow := false
  zero := false
  ram := ⟨[]⟩
  ramAddr := 0#8
  rom := ⟨[]⟩
  romAddr := 0#8
  io := ⟨[]⟩
  ioAddr := 0#7
  lines := {}
  draws := 0

end Sys2Proof.Machine
end

