-- ==== Sys2Proof/Machine/Ops.lean ====
section
/-! DEFINITION. The named operations over registers and memory (00_scope.md R12), the passing of ticks
(40_sequencer.md R100), and what an invalid opcode does (R113). The machine takes no exceptions and so returns from none
(60_exceptions.md R200, R204, R205); an invalid opcode is the only failure there is. -/

namespace Sys2Proof.Machine

/-! ### The step counter (10_state.md R27) -/

/-- The value 0..5 of the step counter. -/
def MicroStep.toNat : MicroStep → Nat
  | .s0 => 0
  | .s1 => 1
  | .s2 => 2
  | .s3 => 3
  | .s4 => 4
  | .s5 => 5

/-- `next`, modulo 6. -/
def MicroStep.next : MicroStep → MicroStep
  | .s0 => .s1
  | .s1 => .s2
  | .s2 => .s3
  | .s3 => .s4
  | .s4 => .s5
  | .s5 => .s0

/-- `previous`, modulo 6; no rule of the machine uses it. -/
def MicroStep.previous : MicroStep → MicroStep
  | .s0 => .s5
  | .s1 => .s0
  | .s2 => .s1
  | .s3 => .s2
  | .s4 => .s3
  | .s5 => .s4

/-! ### Registers -/

/-- `x[i]` (00_scope.md R12). -/
def State.reg (s : State) : Reg → Byte
  | .r1 => s.r1
  | .r2 => s.r2
  | .r3 => s.r3
  | .r4 => s.r4

/-- `x[i] <- v` (00_scope.md R12). -/
def State.setReg (s : State) (r : Reg) (v : Byte) : State :=
  match r with
  | .r1 => { s with r1 := v }
  | .r2 => { s with r2 := v }
  | .r3 => { s with r3 := v }
  | .r4 => { s with r4 := v }

/-- The ALU result and flags latched from r1 and r2 (10_state.md R23; 42_alu.md R153). -/
def State.latchAlu (s : State) (neg : Bool) : State :=
  { s with
    r1 := aluValue s.r1 s.r2 neg
    overflow := aluOverflow s.r1 s.r2 neg
    zero := aluZero s.r1 s.r2 neg }

/-! ### Memory -/

/-- `MemRead(a, 1)`: a RAM byte (20_memory.md R64). -/
def State.memRead (s : State) (a : Byte) : Byte := s.ram.read a.toNat

/-- The 9-bit ROM address `bank ‖ romAddr` (20_memory.md R61). -/
def romAddress (bank : Bool) (a : Byte) : BitVec 9 := BitVec.ofBool bank ++ a

/-- `RomRead(a9)` (20_memory.md R61). -/
def State.romRead (s : State) (a9 : BitVec 9) : Byte := s.rom.read a9.toNat

/-- The payload of the instruction at `romAddr`: `RomRead(256 + romAddr)` (30_encoding.md R87). -/
def State.payload (s : State) : Byte := s.romRead (romAddress true s.romAddr)

/-- The IO index a RAM address is mirrored to, if it is mirrored (20_memory.md R66). -/
def ioIndex (p : Config.Params) (a : Byte) : Option (BitVec 7) :=
  if p.mmioActive && decide (p.ioBase.val ≤ a.toNat) && decide (a.toNat < p.ioBase.val + 128) then
    some (BitVec.ofNat 7 (a.toNat - p.ioBase.val))
  else
    none

/-- `MemWrite(a, 1, v)`: write RAM, then mirror the byte into the IO array (20_memory.md R64, R66). -/
def State.memWriteWith (p : Config.Params) (s : State) (a v : Byte) : State :=
  match ioIndex p a with
  | some j => { s with ram := s.ram.write a.toNat v, io := s.io.write j.toNat v, ioAddr := j }
  | none => { s with ram := s.ram.write a.toNat v }

/-! ### The passing of ticks -/

/-- The end of one tick: its lines are stored, the step counter advances, the clock level is a free value
(40_sequencer.md R100, R114, R115; 10_state.md R29). -/
def State.endTick (s : State) (ls : Lines) : State :=
  { s with
    lines := ls
    stepCounter := s.stepCounter.next
    clockLevel := Config.clockLevelDraw s.draws
    draws := s.draws + 1 }

/-- What `n + 1` ticks leave besides their writes: the last tick's lines, the step counter, the clock level. -/
def State.elapse (s : State) (n : Nat) (t : MicroStep) (ls : Lines) : State :=
  { s with
    lines := ls
    stepCounter := t
    clockLevel := Config.clockLevelDraw (s.draws + n)
    draws := s.draws + n + 1 }

/-- The ticks of the execute phase that are still to come AFTER the next one. The execute phase starts at step 2; at
steps 0 and 1 all of it is to come (log 6). -/
def MicroStep.afterNext : MicroStep → Nat
  | .s0 => 3
  | .s1 => 3
  | .s2 => 3
  | .s3 => 2
  | .s4 => 1
  | .s5 => 0

/-- The end of an instruction that is not a taken halt: the ticks up to step 5 pass, the last asserts no lines, and the
step counter is 0 (40_sequencer.md R108, R116). -/
def State.complete (s : State) : State :=
  s.elapse s.stepCounter.afterNext .s0 Lines.off

/-- The line set of a taken halt (40_sequencer.md R112). -/
def Lines.halting : Lines := { halt := true }

/-- A taken halt: the ticks up to step 3 pass, `finished` is set, the step counter is 4 (40_sequencer.md R112;
43_control_output.md R173). -/
def State.stop (s : State) : State :=
  { s with finished := true }.elapse (s.stepCounter.afterNext - 2) .s4 Lines.halting

/-! ### Invalid opcodes -/

/-- The fault of an invalid opcode, which only the policy `fault` has, and which stands in the place of the tick at
step 2 (40_sequencer.md R113; log 2). -/
def invalidOpcodeFault (p : Config.Params) (s : State) : Option Fault :=
  match p.invalidOpcode, s.stepCounter with
  | .fault, .s2 => some (.invalidOpcode s.romAddr)
  | .fault, .s0 => none
  | .fault, .s1 => none
  | .fault, .s3 => none
  | .fault, .s4 => none
  | .fault, .s5 => none
  | .inert, _ => none

/-- The execute phase of an invalid opcode: the fault, or no effect but the passing of the ticks (40_sequencer.md R113). -/
def invalidOpcodeWith (p : Config.Params) (s : State) : Host.Outcome State Fault Refusal :=
  match invalidOpcodeFault p s with
  | some f => .fault f
  | none => .next s.complete

end Sys2Proof.Machine
end

