-- ==== Sys2Proof/Machine/Operands.lean ====
section
/-! DEFINITION. The condition gate (40_sequencer.md R106), the operand forms (30_encoding.md R84, R87), and the shape of an
execute phase (40_sequencer.md R102): which writes of it are still to come, and whether they apply. -/

namespace Sys2Proof.Machine

/-- The gate `G = (c = noCondition) or overflow` (40_sequencer.md R102, R106). -/
def gate (c : Cond) (overflow : Bool) : Bool :=
  match c with
  | .noCondition => true
  | .aluOverflow => overflow

/-- Is the tick of step `k` of the current instruction still to come? -/
def State.due (s : State) (k : MicroStep) : Bool :=
  decide (s.stepCounter.toNat ≤ k.toNat)

/-- Step 2 of a RAM-addressed operation, never gated: the payload goes into the RAM address register
(40_sequencer.md R105). -/
def State.latchRamAddr (s : State) (a : Byte) : State :=
  if s.due .s2 then { s with ramAddr := a } else s

/-- A gated write of step `k`: it applies when that step is still to come and the gate is open (40_sequencer.md R106). -/
def State.onStep (s : State) (k : MicroStep) (c : Cond) (write : State → State) : State :=
  if s.due k && gate c s.overflow then write s else s

/-- The RAM operand of step 3: the byte at the RAM address register (20_memory.md R64). -/
def State.ramOperand (s : State) : Byte := s.memRead s.ramAddr

/-- The execute phase of an ALU operation from its step 3 on: operand B into r2, then the result into r1 and the flags
(10_state.md R23; 42_alu.md section 2). -/
def State.aluPhase (s : State) (c : Cond) (neg : Bool) (operandB : State → Byte) : State :=
  ((s.onStep .s3 c fun t => t.setReg .r2 (operandB t)).onStep .s4 c fun t => t.latchAlu neg).complete

end Sys2Proof.Machine
end

