-- ==== Sys2Proof/Machine/Alu.lean ====
section
/-! DEFINITION. The arithmetic operations (42_alu.md section 2): add, addImmediate, sub, subImmediate. Each meaning is the
execute phase, steps 2 to 5, of an instruction whose fetch is done. -/

namespace Sys2Proof.Machine

/-- `add [a]` (42_alu.md R154). -/
def execAdd (c : Cond) (a : Byte) (s : State) : Host.Outcome State Fault Refusal :=
  .next ((s.latchRamAddr a).aluPhase c false State.ramOperand)

/-- `addImmediate #v` (42_alu.md R155). -/
def execAddImmediate (c : Cond) (v : Byte) (s : State) : Host.Outcome State Fault Refusal :=
  .next (s.aluPhase c false fun _ => v)

/-- `sub [a]` (42_alu.md R156). -/
def execSub (c : Cond) (a : Byte) (s : State) : Host.Outcome State Fault Refusal :=
  .next ((s.latchRamAddr a).aluPhase c true State.ramOperand)

/-- `subImmediate #v` (42_alu.md R157). -/
def execSubImmediate (c : Cond) (v : Byte) (s : State) : Host.Outcome State Fault Refusal :=
  .next (s.aluPhase c true fun _ => v)

end Sys2Proof.Machine
end

