-- ==== Sys2Proof/Machine/Control.lean ====
section
/-! DEFINITION. Control transfer and output (43_control_output.md): jump, jumpImmediate, out, halt. Each meaning is the
execute phase, steps 2 to 5, of an instruction whose fetch is done. -/

namespace Sys2Proof.Machine

/-- `jump [a]` (43_control_output.md R170). -/
def execJump (c : Cond) (a : Byte) (s : State) : Host.Outcome State Fault Refusal :=
  .next ((s.latchRamAddr a).onStep .s3 c fun t => { t with pc := t.ramOperand }).complete

/-- `jumpImmediate #t` (43_control_output.md R171). -/
def execJumpImmediate (c : Cond) (target : Byte) (s : State) : Host.Outcome State Fault Refusal :=
  .next (s.onStep .s3 c fun t => { t with pc := target }).complete

/-- `out rN` (43_control_output.md R172). -/
def execOut (r : Reg) (c : Cond) (s : State) : Host.Outcome State Fault Refusal :=
  .next (s.onStep .s3 c fun t => { t with dec := t.reg r }).complete

/-- `halt` (43_control_output.md R173): a taken halt stops after its step 3 (40_sequencer.md R112). -/
def execHalt (c : Cond) (s : State) : Host.Outcome State Fault Refusal :=
  if s.due .s3 && gate c s.overflow then .next s.stop else .next s.complete

end Sys2Proof.Machine
end

