-- ==== Sys2Proof/Machine/Transfer.lean ====
section
/-! DEFINITION. The transfer operations (41_transfer.md): noOp, store, load, loadImmediate. Each meaning is the execute
phase, steps 2 to 5, of an instruction whose fetch is done. -/

namespace Sys2Proof.Machine

/-- `noOp` (41_transfer.md R130): no effect, whatever the condition. -/
def execNoOp (_c : Cond) (s : State) : Host.Outcome State Fault Refusal :=
  .next s.complete

/-- `store rN, [a]` (41_transfer.md R131) under the given parameters of the IO window (20_memory.md R66). -/
def execStoreWith (p : Config.Params) (r : Reg) (c : Cond) (a : Byte) (s : State) : Host.Outcome State Fault Refusal :=
  .next ((s.latchRamAddr a).onStep .s3 c fun t => t.memWriteWith p t.ramAddr (t.reg r)).complete

/-- `store rN, [a]` (41_transfer.md R131). -/
def execStore (r : Reg) (c : Cond) (a : Byte) (s : State) : Host.Outcome State Fault Refusal :=
  execStoreWith params r c a s

/-- `load rN, [a]` (41_transfer.md R132). -/
def execLoad (r : Reg) (c : Cond) (a : Byte) (s : State) : Host.Outcome State Fault Refusal :=
  .next ((s.latchRamAddr a).onStep .s3 c fun t => t.setReg r t.ramOperand).complete

/-- `loadImmediate rN, #v` (41_transfer.md R133). -/
def execLoadImmediate (r : Reg) (c : Cond) (v : Byte) (s : State) : Host.Outcome State Fault Refusal :=
  .next (s.onStep .s3 c fun t => t.setReg r v).complete

end Sys2Proof.Machine
end

