-- ==== Sys2Proof/Machine/Dispatch.lean ====
section
/-! DEFINITION. One arm per instruction. -/

namespace Sys2Proof.Machine

def exec (i : Instr) (s : State) : Host.Outcome State Fault Refusal :=
  match i with
  -- 41_transfer.md
  | .noOp c => Sys2Proof.Machine.execNoOp c s
  | .store r c a => Sys2Proof.Machine.execStore r c a s
  | .load r c a => Sys2Proof.Machine.execLoad r c a s
  | .loadImmediate r c v => Sys2Proof.Machine.execLoadImmediate r c v s
  -- 42_alu.md
  | .add c a => Sys2Proof.Machine.execAdd c a s
  | .addImmediate c v => Sys2Proof.Machine.execAddImmediate c v s
  | .sub c a => Sys2Proof.Machine.execSub c a s
  | .subImmediate c v => Sys2Proof.Machine.execSubImmediate c v s
  -- 43_control_output.md
  | .jump c a => Sys2Proof.Machine.execJump c a s
  | .jumpImmediate c t => Sys2Proof.Machine.execJumpImmediate c t s
  | .out r c => Sys2Proof.Machine.execOut r c s
  | .halt c => Sys2Proof.Machine.execHalt c s

end Sys2Proof.Machine
end

