-- ==== Sys2Proof/WellFormed.lean ====
section
/-! DEFINITION. Which instruction records and which programs are well formed (30_encoding.md R84, R92;
70_reset_and_hazards.md R222). Every term of Instr is well formed: its constructor has exactly the operands of R84. -/

namespace Sys2Proof

/-- Does the operation take a register operand (30_encoding.md R84)? -/
def Operation.hasRegister : Operation → Bool
  | .store => true
  | .load => true
  | .loadImmediate => true
  | .out => true
  | .noOp => false
  | .add => false
  | .addImmediate => false
  | .sub => false
  | .subImmediate => false
  | .jump => false
  | .jumpImmediate => false
  | .halt => false

/-- Does the operation carry a payload byte (30_encoding.md R84)? -/
def Operation.hasPayload : Operation → Bool
  | .noOp => false
  | .out => false
  | .halt => false
  | .store => true
  | .load => true
  | .loadImmediate => true
  | .add => true
  | .addImmediate => true
  | .sub => true
  | .subImmediate => true
  | .jump => true
  | .jumpImmediate => true

/-- The register is given exactly where the operation takes one (30_encoding.md R92). -/
def InstrRecord.registerValid (r : InstrRecord) : Bool :=
  r.register.isSome == r.operation.hasRegister

/-- The payload of an operation without one is 0 (30_encoding.md R92). -/
def InstrRecord.payloadValid (r : InstrRecord) : Bool :=
  r.operation.hasPayload || r.payload == 0#8

/-- The spec's "valid" instruction (30_encoding.md R92; 90_conflicts.md C5). -/
def InstrRecord.valid (r : InstrRecord) : Bool :=
  r.registerValid && r.payloadValid

/-- Well-formedness of an instruction: its record is valid. -/
def Instr.wellFormed (i : Instr) : Bool :=
  i.toRecord.valid

/-- A program has a ROM image when it has at most 256 instructions (70_reset_and_hazards.md R222). -/
def Program.wellFormed (p : Program) : Bool :=
  decide (p.length ≤ 256)

end Sys2Proof
end

