-- ==== Sys2Proof/Decode.lean ====
section
/-! DEFINITION. The codec: `decode` (30_encoding.md R89) and, after it, `encode` (R88). -/

namespace Sys2Proof

/-! ### The codes of the fields -/

/-- The 4-bit code of an operation (30_encoding.md R83). -/
def Operation.code : Operation → BitVec 4
  | .noOp => 0#4
  | .store => 1#4
  | .load => 2#4
  | .loadImmediate => 3#4
  | .add => 4#4
  | .addImmediate => 5#4
  | .sub => 6#4
  | .subImmediate => 7#4
  | .jump => 8#4
  | .jumpImmediate => 9#4
  | .out => 10#4
  | .halt => 15#4

/-- The operation of a 4-bit code; 11 to 14 are reserved and have none (30_encoding.md R83). -/
def Operation.ofCode (n : BitVec 4) : Option Operation :=
  match n.toNat with
  | 0 => some .noOp
  | 1 => some .store
  | 2 => some .load
  | 3 => some .loadImmediate
  | 4 => some .add
  | 5 => some .addImmediate
  | 6 => some .sub
  | 7 => some .subImmediate
  | 8 => some .jump
  | 9 => some .jumpImmediate
  | 10 => some .out
  | 15 => some .halt
  | _ => none

/-- The 2-bit index of a register (10_state.md R22, decision D2; log 7). -/
def Reg.index : Reg → BitVec 2
  | .r1 => 0#2
  | .r2 => 1#2
  | .r3 => 2#2
  | .r4 => 3#2

/-- The register of a 2-bit index (10_state.md R22). -/
def Reg.ofIndex (n : BitVec 2) : Reg :=
  match n.toNat with
  | 0 => .r1
  | 1 => .r2
  | 2 => .r3
  | _ => .r4

/-- The condition bit (30_encoding.md R86, decision D9; log 7). -/
def Cond.bit : Cond → BitVec 1
  | .noCondition => 0#1
  | .aluOverflow => 1#1

/-- The condition of a condition bit (30_encoding.md R86). -/
def Cond.ofBit (b : Bool) : Cond :=
  if b then .aluOverflow else .noCondition

/-! ### The fields of the upper byte (30_encoding.md R81) -/

/-- `u[7:4]`. -/
def opcodeField (u : Byte) : BitVec 4 := u.extractLsb' 4 4

/-- `u[3:2]`. -/
def regField (u : Byte) : BitVec 2 := u.extractLsb' 2 2

/-- `u[1]`. -/
def condField (u : Byte) : Bool := u.getLsbD 1

/-- `u[0]`, reserved. -/
def reservedField (u : Byte) : Bool := u.getLsbD 0

/-! ### Decoding -/

/-- The codec's only error (60_exceptions.md R201). -/
inductive DecodeError where
  /-- `InvalidMachineCode`: the opcode is 11, 12, 13 or 14 (30_encoding.md R89). -/
  | invalidMachineCode
  deriving DecidableEq, Repr

/-- The instruction of an operation and the fields it uses; fields it does not use are dropped (30_encoding.md R85, R90). -/
def Instr.ofFields (op : Operation) (r : Reg) (c : Cond) (l : Byte) : Instr :=
  match op with
  | .noOp => .noOp c
  | .store => .store r c l
  | .load => .load r c l
  | .loadImmediate => .loadImmediate r c l
  | .add => .add c l
  | .addImmediate => .addImmediate c l
  | .sub => .sub c l
  | .subImmediate => .subImmediate c l
  | .jump => .jump c l
  | .jumpImmediate => .jumpImmediate c l
  | .out => .out r c
  | .halt => .halt c

/-- `decode(u, l)` (30_encoding.md R89): total over all pairs of bytes. -/
def decode (u l : Byte) : Except DecodeError Instr :=
  match Operation.ofCode (opcodeField u) with
  | some op => .ok (Instr.ofFields op (Reg.ofIndex (regField u)) (Cond.ofBit (condField u)) l)
  | none => .error .invalidMachineCode

/-- `decode` with its result in the spec's record form (30_encoding.md R89). -/
def decodeRecord (u l : Byte) : Except DecodeError InstrRecord :=
  match decode u l with
  | .ok i => .ok i.toRecord
  | .error e => .error e

/-- Every bit that `decode` and the machine ignore is 0 (30_encoding.md R90): `u[0]`, the register field of an operation
without a register operand, and the lower byte of an operation without a payload. -/
def ignoredBitsZero (u l : Byte) : Bool :=
  match Operation.ofCode (opcodeField u) with
  | none => false
  | some op =>
    !reservedField u && (op.hasRegister || regField u == 0#2) && (op.hasPayload || l == 0#8)

/-- The instruction the decoder reads from a word of opcode_table.json, where the word is `u ‖ l` with `u` in bits 15:8
(00_scope.md R10): `u` goes to ROM bank 0 and `l` to bank 1 (20_memory.md R62). Bits above `nbits` are 0. -/
def decodeTableWord (nbits w : Nat) : Option Instr :=
  let w16 := BitVec.ofNat 16 (w % 2 ^ nbits)
  match decode (w16.extractLsb' 8 8) (w16.extractLsb' 0 8) with
  | .ok i => some i
  | .error _ => none

/-! ### Encoding -/

/-- The register field of an optional register: `regIndex(absent) = 0` (30_encoding.md R88). -/
def regIndexField : Option Reg → BitVec 2
  | some r => r.index
  | none => 0#2

/-- `encode` on the spec's record form, the formula of 30_encoding.md R88: upper byte, lower byte. -/
def encodeRecord (i : InstrRecord) : Byte × Byte :=
  ((i.operation.code.setWidth 8 <<< 4) ||| ((regIndexField i.register).setWidth 8 <<< 2)
      ||| (i.condition.bit.setWidth 8 <<< 1),
    if i.operation.hasPayload then i.payload else 0#8)

/-- `encode(i)`: the upper and the lower byte of an instruction (30_encoding.md R88). -/
def encode (i : Instr) : Byte × Byte :=
  encodeRecord i.toRecord

end Sys2Proof
end

