-- ==== Sys2Proof/Machine/Microcode.lean ====
section
/-! DEFINITION. The microcode sequencer (40_sequencer.md): which lines each step asserts (R102), what each line does (R109),
and the tick `clockTick()` (R100). The meanings of the instructions, written from files 41 to 43, do not use this file. -/

namespace Sys2Proof.Machine

/-! ### The microcode table (40_sequencer.md R102) -/

/-- Step 0 of every instruction (R103). -/
def Lines.fetchAddress : Lines := { pcOut := true, romAddressIn := true }

/-- Step 1 of every instruction (R104). -/
def Lines.fetchUpper : Lines := { romValueOut := true, instructionRegisterIn := true, pcIncrement := true }

/-- Step 2 of the RAM-addressed operations (R105). -/
def Lines.fetchRamAddress : Lines := { romValueOut := true, romBankBit9 := true, ramAddressIn := true }

/-- The payload of an immediate operation on the bus (30_encoding.md R87). -/
def Lines.payloadOut : Lines := { romValueOut := true, romBankBit9 := true }

/-- The RAM operand on the bus. -/
def Lines.ramOut : Lines := { ramValueOut := true }

/-- Step 4 of the ALU operations. -/
def Lines.aluLatch (neg : Bool) : Lines :=
  { aluNegate := neg, aluOut := true, aluSetFlags := true, reg1In := true }

/-- The rows of step 2, never gated (R102, R105). -/
def stepTwoLines : Instr → Lines
  | .store _ _ _ => Lines.fetchRamAddress
  | .load _ _ _ => Lines.fetchRamAddress
  | .add _ _ => Lines.fetchRamAddress
  | .sub _ _ => Lines.fetchRamAddress
  | .jump _ _ => Lines.fetchRamAddress
  | .noOp _ => Lines.off
  | .loadImmediate _ _ _ => Lines.off
  | .addImmediate _ _ => Lines.off
  | .subImmediate _ _ => Lines.off
  | .jumpImmediate _ _ => Lines.off
  | .out _ _ => Lines.off
  | .halt _ => Lines.off

/-- The rows of step 3 where the gate is open (R102). -/
def stepThreeLines : Instr → Lines
  | .noOp _ => Lines.off
  | .store r _ _ => { Lines.off.withRegOut r with ramValueIn := true }
  | .load r _ _ => Lines.ramOut.withRegIn r
  | .loadImmediate r _ _ => Lines.payloadOut.withRegIn r
  | .add _ _ => Lines.ramOut.withRegIn .r2
  | .sub _ _ => Lines.ramOut.withRegIn .r2
  | .addImmediate _ _ => Lines.payloadOut.withRegIn .r2
  | .subImmediate _ _ => Lines.payloadOut.withRegIn .r2
  | .jump _ _ => { Lines.ramOut with pcIn := true }
  | .jumpImmediate _ _ => { Lines.payloadOut with pcIn := true }
  | .out r _ => { Lines.off.withRegOut r with decimalOutputIn := true }
  | .halt _ => Lines.halting

/-- The rows of step 4 where the gate is open (R102). -/
def stepFourLines : Instr → Lines
  | .add _ _ => Lines.aluLatch false
  | .addImmediate _ _ => Lines.aluLatch false
  | .sub _ _ => Lines.aluLatch true
  | .subImmediate _ _ => Lines.aluLatch true
  | .noOp _ => Lines.off
  | .store _ _ _ => Lines.off
  | .load _ _ _ => Lines.off
  | .loadImmediate _ _ _ => Lines.off
  | .jump _ _ => Lines.off
  | .jumpImmediate _ _ => Lines.off
  | .out _ _ => Lines.off
  | .halt _ => Lines.off

/-- The execute rows of an instruction; `open_` is the gate. Steps 0 and 1 are the fetch rows of every instruction, and
step 5 asserts nothing (R102, R108). -/
def instrLines (st : MicroStep) (i : Instr) (open_ : Bool) : Lines :=
  match st with
  | .s0 => Lines.fetchAddress
  | .s1 => Lines.fetchUpper
  | .s2 => stepTwoLines i
  | .s3 => if open_ then stepThreeLines i else Lines.off
  | .s4 => if open_ then stepFourLines i else Lines.off
  | .s5 => Lines.off

/-- The rows of an invalid opcode: the fetch, and then nothing (R102, R113). -/
def invalidLines (st : MicroStep) : Lines :=
  match st with
  | .s0 => Lines.fetchAddress
  | .s1 => Lines.fetchUpper
  | .s2 => Lines.off
  | .s3 => Lines.off
  | .s4 => Lines.off
  | .s5 => Lines.off

/-- `M(step, ir, overflow)` (R102). -/
def microcode (st : MicroStep) (ir : Byte) (overflow : Bool) : Lines :=
  match decode ir 0#8 with
  | .ok i => instrLines st i (gate i.condition overflow)
  | .error _ => invalidLines st

/-! ### What the lines do (40_sequencer.md R109) -/

/-- The byte on the bus: the value of the one asserted output line, or 0 with none (R109; 10_state.md R39). No tick asserts
two of them (R110); the order of the cases is not a rule (log 8). -/
def drivenBus (ls : Lines) (s : State) : Byte :=
  if ls.pcOut then s.pc
  else if ls.reg1Out then s.r1
  else if ls.reg2Out then s.r2
  else if ls.reg3Out then s.r3
  else if ls.reg4Out then s.r4
  else if ls.romValueOut then s.romRead (romAddress ls.romBankBit9 s.romAddr)
  else if ls.ramValueOut then s.memRead s.ramAddr
  else if ls.aluOut then aluValue s.r1 s.r2 ls.aluNegate
  else 0#8

/-- The RAM, IO and IO address a tick leaves (R109 `ramValueIn`): those of `MemWrite` at the address register. -/
def latchRam (p : Config.Params) (ls : Lines) (bus : Byte) (s : State) : State :=
  if ls.ramValueIn then s.memWriteWith p s.ramAddr bus else s

/-- The writes of the asserted lines; every value is read from the state before the tick (R101, R109). -/
def applyLines (p : Config.Params) (ls : Lines) (s : State) : State :=
  let bus := drivenBus ls s
  let written := latchRam p ls bus s
  { s with
    r1 := if ls.reg1In then bus else s.r1
    r2 := if ls.reg2In then bus else s.r2
    r3 := if ls.reg3In then bus else s.r3
    r4 := if ls.reg4In then bus else s.r4
    romAddr := if ls.romAddressIn then bus else s.romAddr
    ramAddr := if ls.ramAddressIn then bus else s.ramAddr
    ram := written.ram
    io := written.io
    ioAddr := written.ioAddr
    pc := if ls.pcIn then bus else if ls.pcIncrement then s.pc + 1#8 else s.pc
    ir := if ls.instructionRegisterIn then bus else s.ir
    dec := if ls.decimalOutputIn then bus else s.dec
    overflow := if ls.aluSetFlags then aluOverflow s.r1 s.r2 ls.aluNegate else s.overflow
    zero := if ls.aluSetFlags then aluZero s.r1 s.r2 ls.aluNegate else s.zero
    finished := if ls.halt then true else s.finished }

/-! ### The tick (40_sequencer.md R100) -/

/-- Does the sequencer stop here with the fault of an invalid opcode (R113)? -/
def tickFault (p : Config.Params) (s : State) : Option Fault :=
  match decode s.ir 0#8 with
  | .ok _ => none
  | .error _ => invalidOpcodeFault p s

/-- `clockTick()` under the given parameters (R100, R113). -/
def clockTickWith (p : Config.Params) (s : State) : Host.Outcome State Fault Refusal :=
  if s.finished then .next s
  else
    match tickFault p s with
    | some f => .fault f
    | none =>
      let ls := microcode s.stepCounter s.ir s.overflow
      .next ((applyLines p ls s).endTick ls)

/-- `clockTick()` of the core (R100). -/
def clockTick (s : State) : Host.Outcome State Fault Refusal :=
  clockTickWith params s

/-- `n` ticks, up to the first fault. -/
def runTicksWith (p : Config.Params) : Nat → State → Host.Outcome State Fault Refusal
  | 0, s => .next s
  | n + 1, s =>
    match clockTickWith p s with
    | .next t => runTicksWith p n t
    | .fault f => .fault f
    | .refused r => .refused r

/-- The ticks from here to the end of the current instruction (R108). -/
def MicroStep.ticksToBoundary (st : MicroStep) : Nat := 6 - st.toNat

end Sys2Proof.Machine
end

