-- ==== Sys2Proof/Machine/Fetch.lean ====
section
/-! DEFINITION. The fetch phase of an instruction, steps 0 and 1 (40_sequencer.md R103, R104), and where a word is placed
for it. -/

namespace Sys2Proof.Machine

/-- Step 0: the program counter goes into the ROM address register (R103). -/
def State.fetchAddress (s : State) : State :=
  { s with romAddr := s.pc }.endTick Lines.fetchAddress

/-- Step 1: the upper byte goes into the instruction register and the program counter advances, modulo 256 (R104). -/
def State.fetchUpper (s : State) : State :=
  { s with ir := s.romRead (romAddress false s.romAddr), pc := s.pc + 1#8 }.endTick Lines.fetchUpper

/-- The fetch ticks that are still to come: at steps 2 to 5 the fetch of the current instruction is done. -/
def State.fetch (s : State) : State :=
  match s.stepCounter with
  | .s0 => s.fetchAddress.fetchUpper
  | .s1 => s.fetchUpper
  | .s2 => s
  | .s3 => s
  | .s4 => s
  | .s5 => s

/-- The instruction in the execute phase: the upper byte is in `ir`, the payload in ROM bank 1 at `romAddr`
(30_encoding.md R87). -/
def State.current (s : State) : Except DecodeError Instr :=
  decode s.ir s.payload

/-- The two bytes of a word `u ‖ l` at ROM index `k`: `u` in bank 0, `l` in bank 1 (20_memory.md R62). -/
def placeWord (rom : Memory) (k u l : Byte) : Memory :=
  (rom.write (romAddress false k).toNat u).write (romAddress true k).toNat l

end Sys2Proof.Machine
end

