-- ==== Sys2Proof/Machine/Step.lean ====
section
/-! DEFINITION. One step of the machine: one instruction, from the current state to the next instruction boundary
(40_sequencer.md R116; log 4). -/

namespace Sys2Proof.Machine

/-- One instruction: what of its fetch is still to come, then its execute phase. A finished machine stays as it is
(40_sequencer.md R100). -/
def step (s : State) : Host.Outcome State Fault Refusal :=
  if s.finished then .next s
  else
    match s.fetch.current with
    | .ok i => exec i s.fetch
    | .error _ => invalidOpcodeWith params s.fetch

/-- `exec` under the given parameters: only `store` depends on them (20_memory.md R66). -/
def execWith (p : Config.Params) (i : Instr) (s : State) : Host.Outcome State Fault Refusal :=
  match i with
  | .noOp c => execNoOp c s
  | .store r c a => execStoreWith p r c a s
  | .load r c a => execLoad r c a s
  | .loadImmediate r c v => execLoadImmediate r c v s
  | .add c a => execAdd c a s
  | .addImmediate c v => execAddImmediate c v s
  | .sub c a => execSub c a s
  | .subImmediate c v => execSubImmediate c v s
  | .jump c a => execJump c a s
  | .jumpImmediate c t => execJumpImmediate c t s
  | .out r c => execOut r c s
  | .halt c => execHalt c s

/-- One instruction under the given parameters (00_scope.md R9). -/
def stepWith (p : Config.Params) (s : State) : Host.Outcome State Fault Refusal :=
  if s.finished then .next s
  else
    match s.fetch.current with
    | .ok i => execWith p i s.fetch
    | .error _ => invalidOpcodeWith p s.fetch

/-- The state with a word of opcode_table.json, `u ‖ l`, stored at the ROM index the next fetch reads, at an instruction
boundary of an unfinished machine (log 5). -/
def State.withFetchWord (s : State) (nbits w : Nat) : State :=
  let w16 := BitVec.ofNat 16 (w % 2 ^ nbits)
  { s with
    rom := placeWord s.rom s.pc (w16.extractLsb' 8 8) (w16.extractLsb' 0 8)
    stepCounter := .s0
    finished := false }

end Sys2Proof.Machine
end

