-- ==== Sys2Proof/Assembly.lean ====
section
/-! DEFINITION. The spec's text notation of instructions (30_encoding.md R93), as a writer. Nothing of the machine reads it:
the source defines no assembler (decision D21). -/

namespace Sys2Proof

/-- `rN` (30_encoding.md R93). -/
def Reg.text : Reg → String
  | .r1 => "r1"
  | .r2 => "r2"
  | .r3 => "r3"
  | .r4 => "r4"

/-- `.ovf`, or nothing (30_encoding.md R93). -/
def Cond.text : Cond → String
  | .noCondition => ""
  | .aluOverflow => ".ovf"

/-- `[a]`, a RAM address payload, in decimal. -/
def addressText (a : Byte) : String := "[" ++ toString a.toNat ++ "]"

/-- `#v`, an immediate payload, in decimal. -/
def immediateText (v : Byte) : String := "#" ++ toString v.toNat

/-- An instruction in the spec's notation (30_encoding.md R93). -/
def Instr.text : Instr → String
  | .noOp c => "noOp" ++ c.text
  | .store r c a => "store" ++ c.text ++ " " ++ r.text ++ ", " ++ addressText a
  | .load r c a => "load" ++ c.text ++ " " ++ r.text ++ ", " ++ addressText a
  | .loadImmediate r c v => "loadImmediate" ++ c.text ++ " " ++ r.text ++ ", " ++ immediateText v
  | .add c a => "add" ++ c.text ++ " " ++ addressText a
  | .addImmediate c v => "addImmediate" ++ c.text ++ " " ++ immediateText v
  | .sub c a => "sub" ++ c.text ++ " " ++ addressText a
  | .subImmediate c v => "subImmediate" ++ c.text ++ " " ++ immediateText v
  | .jump c a => "jump" ++ c.text ++ " " ++ addressText a
  | .jumpImmediate c t => "jumpImmediate" ++ c.text ++ " " ++ immediateText t
  | .out r c => "out" ++ c.text ++ " " ++ r.text
  | .halt c => "halt" ++ c.text

/-- A program, one instruction on a line (30_encoding.md R93). -/
def Program.text (p : Program) : String := String.intercalate "\n" (p.map Instr.text)

end Sys2Proof
end

