-- ==== Sys2Proof/Machine/HostInterface.lean ====
section
/-! DEFINITION. What the host does with the machine besides ticking it (70_reset_and_hazards.md R220): `load`, the only
reset (R221), and the derived values of a snapshot (10_state.md R40, 60_exceptions.md R211). -/

namespace Sys2Proof.Machine

/-- The ROM image of the instructions from index `k` on (20_memory.md R63). -/
def romImageFrom (k : Nat) : Program → Memory
  | [] => Memory.empty
  | i :: rest => ((romImageFrom (k + 1) rest).write k (encode i).1).write (256 + k) (encode i).2

/-- The ROM image of a program (20_memory.md R63). -/
def romImage (p : Program) : Memory := romImageFrom 0 p

/-- `load(p)`: a fresh state with the ROM image of `p`, or a refusal of more than 256 instructions
(70_reset_and_hazards.md R221, R222). The old state leaves only the model's own count of free values (log 3). -/
def hostLoad (p : Program) (s : State) : Host.Outcome State Fault Refusal :=
  if Program.wellFormed p then
    .next { State.reset with rom := romImage p, draws := s.draws }
  else
    .refused .programTooLong

/-- The ALU output of a snapshot, from the stored lines (10_state.md R40). -/
def State.aluOutput (s : State) : Byte := aluValue s.r1 s.r2 s.lines.aluNegate

/-- The RAM current value (10_state.md R40). -/
def State.ramValue (s : State) : Byte := s.memRead s.ramAddr

/-- The ROM current value, in the bank of the stored lines (10_state.md R40). -/
def State.romValue (s : State) : Byte := s.romRead (romAddress s.lines.romBankBit9 s.romAddr)

/-- The IO current value (10_state.md R40). -/
def State.ioValue (s : State) : Byte := s.io.read s.ioAddr.toNat

/-- The list of asserted control lines (60_exceptions.md R211). -/
def State.assertedLines (s : State) : List Line := s.lines.asserted

/-- The packed control word (10_state.md R38). -/
def State.controlWord (s : State) : BitVec 24 := s.lines.controlWord

end Sys2Proof.Machine
end

