-- ==== Sys2Proof/Safety.lean ====
section
/-! DEFINITION. What counts as a well-formed state and as a safe run: the invariants that statements name. -/

namespace Sys2Proof.Machine

/-- The three memories are in canonical form and list only addresses their spaces have (20_memory.md R61, R64, R65). -/
abbrev State.memoriesWf (s : State) : Prop :=
  (s.rom.wf ∧ s.rom.within 512) ∧ (s.ram.wf ∧ s.ram.within 256) ∧ (s.io.wf ∧ s.io.within 128)

/-- The IO array holds what the RAM window holds (20_memory.md R66: every write to the window since `load`, when both were
0, was mirrored). Nothing is asked where mirroring is off. -/
abbrev State.ioMirrors (p : Config.Params) (s : State) : Prop :=
  p.mmioActive = true → ∀ j : BitVec 7, s.io.read j.toNat = s.ram.read (p.ioBase.val + j.toNat)

/-- A finished machine is frozen after the tick of a taken halt (40_sequencer.md R112). -/
abbrev State.frozenAfterHalt (s : State) : Prop :=
  s.finished = true → s.stepCounter = .s4 ∧ s.lines = Lines.halting

/-- Between instructions: the next tick is step 0 (40_sequencer.md R116), or the machine is finished. -/
abbrev State.atBoundary (s : State) : Prop :=
  s.finished = true ∨ s.stepCounter = .s0

/-! ### What statements say of two states -/

/-- The gate of a condition in a state (40_sequencer.md R106), as a proposition: `noCondition`, or overflow is set. -/
abbrev State.applies (s : State) (c : Cond) : Prop :=
  c = .noCondition ∨ s.overflow = true

/-- Every general register is as before. -/
abbrev sameRegs (s t : State) : Prop := ∀ q : Reg, t.reg q = s.reg q

/-- Both flags are as before. -/
abbrev sameFlags (s t : State) : Prop := t.overflow = s.overflow ∧ t.zero = s.zero

/-- Every byte of RAM reads as before. -/
abbrev sameRam (s t : State) : Prop := ∀ x : Byte, t.memRead x = s.memRead x

/-- Every byte of ROM reads as before. -/
abbrev sameRom (s t : State) : Prop := ∀ x : BitVec 9, t.romRead x = s.romRead x

/-- Every byte of the IO array reads as before, and its address register is as before. -/
abbrev sameIo (s t : State) : Prop :=
  (∀ j : BitVec 7, t.io.read j.toNat = s.io.read j.toNat) ∧ t.ioAddr = s.ioAddr

/-- The instruction in execution in `s` is over in `t` and did not halt: the step counter is 0, no line is asserted
(40_sequencer.md R108, R116), and the fetch registers and `finished` are as before. -/
abbrev endsInstruction (s t : State) : Prop :=
  t.stepCounter = .s0 ∧ t.lines = Lines.off ∧ t.finished = s.finished ∧ t.ir = s.ir ∧ t.romAddr = s.romAddr

/-- A boundary of an unfinished machine at which the next instruction is `i`: its two bytes stand at the program counter in
the two banks of ROM (20_memory.md R62). -/
abbrev State.nextIs (s : State) (i : Instr) : Prop :=
  s.finished = false ∧ s.stepCounter = .s0 ∧
    decode (s.romRead (romAddress false s.pc)) (s.romRead (romAddress true s.pc)) = .ok i

end Sys2Proof.Machine
end

