-- ==== Sys2Proof/Certificates/Slice0/Obligations.lean ====
section
/-! DEFINITION. The statements for the provers. In the docstrings Rn are rules of spec/, Dn the spec's own decisions in
92_eei_decisions.md, and "log n" the model's row notes/assumptions/n.md. -/

open Sys2Proof Sys2Proof.Machine

/-! ### The codec -/

/-- Decode and encode agree: every instruction, and every valid record of the spec's own form, comes back from its two
bytes with every operand (R92's law, S1; "valid" is the spec's reading C5, D18). -/
def Obligations.DecodeEncodeRoundTrip : Prop :=
  (∀ i : Instr, decode (encode i).1 (encode i).2 = .ok i) ∧
  (∀ r : InstrRecord, r.valid = true → decodeRecord (encodeRecord r).1 (encodeRecord r).2 = .ok r)

/-- The converse holds exactly where every ignored bit is 0 (the spec's inference in R92; R90, D18). -/
def Obligations.EncodeDecodeExactlyWithoutIgnoredBits : Prop :=
  ∀ (u l : Byte) (i : Instr), decode u l = .ok i → (encode i = (u, l) ↔ ignoredBitsZero u l = true)

/-- R201: `InvalidMachineCode` is the codec's only error, and `decode` answers it exactly for opcodes 11 to 14. -/
def Obligations.DecodeFailsExactlyOnReservedOpcodes : Prop :=
  (∀ e : DecodeError, e = .invalidMachineCode) ∧
  ∀ u l : Byte, decode u l = .error .invalidMachineCode ↔ (11 ≤ u.toNat / 16 ∧ u.toNat / 16 ≤ 14)

/-- R83: the closed set of operations and their codes, in both directions; 11 to 14 have no operation. -/
def Obligations.OpcodesAreTheClosedSet : Prop :=
  [Operation.noOp, .store, .load, .loadImmediate, .add, .addImmediate, .sub, .subImmediate, .jump, .jumpImmediate, .out,
    .halt].map Operation.code = [0#4, 1#4, 2#4, 3#4, 4#4, 5#4, 6#4, 7#4, 8#4, 9#4, 10#4, 15#4] ∧
  (∀ (op : Operation) (n : BitVec 4), Operation.ofCode n = some op ↔ op.code = n) ∧
  [11#4, 12#4, 13#4, 14#4].map Operation.ofCode = [none, none, none, none]

/-- R81: where `encode` puts each field of the upper byte. -/
def Obligations.UpperBytePacksTheFields : Prop :=
  ∀ r : InstrRecord,
    (encodeRecord r).1.extractLsb' 4 4 = r.operation.code ∧
    (encodeRecord r).1.extractLsb' 2 2 = (match r.register with | some q => q.index | none => 0#2) ∧
    (encodeRecord r).1.extractLsb' 1 1 = r.condition.bit ∧
    (encodeRecord r).1.getLsbD 0 = false

/-- `decode` reads the opcode, the condition, the register field of the four operations that have one and the lower byte
of the nine that carry a payload, and no other bit (the spec's decision D18; R85, R89, R90). -/
def Obligations.DecodeIgnoresUnusedBits : Prop :=
  ∀ (u u' l l' : Byte) (i : Instr), decode u l = .ok i →
    opcodeField u' = opcodeField u → condField u' = condField u →
    (i.operation.hasRegister = true → regField u' = regField u) →
    (i.operation.hasPayload = true → l' = l) →
    decode u' l' = .ok i

/-- Words written out from the encodings of files 41 to 43 and 95_test_vectors.md decode to the instructions they stand
for (a sanity statement). -/
def Obligations.SpecWordsDecode : Prop :=
  decode 0x14#8 0x40#8 = .ok (.store .r2 .noCondition 0x40#8) ∧
  decode 0x2C#8 0xFF#8 = .ok (.load .r4 .noCondition 0xFF#8) ∧
  decode 0x38#8 0xC8#8 = .ok (.loadImmediate .r3 .noCondition 200#8) ∧
  decode 0x42#8 0x10#8 = .ok (.add .aluOverflow 0x10#8) ∧
  decode 0x70#8 0x01#8 = .ok (.subImmediate .noCondition 1#8) ∧
  decode 0x92#8 0x07#8 = .ok (.jumpImmediate .aluOverflow 7#8) ∧
  decode 0xAC#8 0x00#8 = .ok (.out .r4 .noCondition) ∧
  decode 0xF2#8 0x00#8 = .ok (.halt .aluOverflow) ∧
  decode 0xB0#8 0x00#8 = .error .invalidMachineCode

/-! ### The ALU -/

/-- R151: overflow is unsigned: outside 0..255, the carry of an addition, the borrow of a subtraction. -/
def Obligations.OverflowIsUnsignedRange : Prop :=
  ∀ a b : Byte,
    (∀ neg : Bool, aluOverflow a b neg = true ↔ ¬ (0 ≤ aluRaw a b neg ∧ aluRaw a b neg ≤ 255)) ∧
    (aluOverflow a b false = true ↔ a.toNat + b.toNat > 255) ∧
    (aluOverflow a b true = true ↔ a.toNat < b.toNat)

/-- R152: zero is true when the truncated output is 0, so that 255 + 1 sets both flags. -/
def Obligations.ZeroFlagIsTruncatedZero : Prop :=
  (∀ (a b : Byte) (neg : Bool), aluZero a b neg = true ↔ (aluValue a b neg).toNat = 0) ∧
  aluZero 255#8 1#8 false = true ∧ aluOverflow 255#8 1#8 false = true

/-- R158: 8-bit unsigned arithmetic with wrap-around modulo 256, and its overflow. -/
def Obligations.AluWrapsModulo256 : Prop :=
  ∀ a b : Byte,
    (aluValue a b false).toNat = (a.toNat + b.toNat) % 256 ∧
    aluOverflow a b false = decide (a.toNat + b.toNat > 255) ∧
    ((aluValue a b true).toNat : Int) = ((a.toNat : Int) - (b.toNat : Int)) % 256 ∧
    aluOverflow a b true = decide (a.toNat < b.toNat)

/-! ### The instructions: completion, result and frame of the execute phase

Each statement is about a state whose fetch is done (`stepCounter = .s2`); `StepRunsTheDecodedInstruction` joins the fetch
to it. Which step does what is the spec's decision D7, what the condition gates D8 (log 7). `clockLevel` is free, and
`draws` is the model's own (log 3): no statement speaks of them. -/

/-- `noOp` (41_transfer.md R130): with either condition, nothing but the end of the instruction. -/
def Obligations.NoOpHasNoEffect : Prop :=
  ∀ (c : Cond) (s : State), s.stepCounter = .s2 →
    ∃ t, exec (.noOp c) s = .next t ∧ sameRegs s t ∧ sameFlags s t ∧ t.pc = s.pc ∧ t.ramAddr = s.ramAddr ∧
      t.dec = s.dec ∧ sameRam s t ∧ sameIo s t ∧ sameRom s t ∧ endsInstruction s t

/-- `store` (41_transfer.md R131): the RAM byte at the payload, and, with the core's parameters `IO_BASE` = 128 and
`MMIO_ACTIVE` = true (log 1), the IO byte it is mirrored to (R66, D12). -/
def Obligations.StoreWritesRamAndMirrors : Prop :=
  ∀ (r : Reg) (c : Cond) (a : Byte) (s : State), s.stepCounter = .s2 →
    ∃ t, exec (.store r c a) s = .next t ∧ t.ramAddr = a ∧
      (s.applies c → t.memRead a = s.reg r) ∧
      (∀ x : Byte, x ≠ a ∨ ¬ s.applies c → t.memRead x = s.memRead x) ∧
      (s.applies c → 128 ≤ a.toNat → t.io.read (a.toNat - 128) = s.reg r ∧ t.ioAddr.toNat = a.toNat - 128) ∧
      (∀ j : BitVec 7, j.toNat + 128 ≠ a.toNat ∨ ¬ s.applies c → t.io.read j.toNat = s.io.read j.toNat) ∧
      (a.toNat < 128 ∨ ¬ s.applies c → t.ioAddr = s.ioAddr) ∧
      sameRegs s t ∧ sameFlags s t ∧ t.pc = s.pc ∧ t.dec = s.dec ∧ sameRom s t ∧ endsInstruction s t

/-- `load` (41_transfer.md R132): the register gets the RAM byte at the payload. -/
def Obligations.LoadReadsRam : Prop :=
  ∀ (r : Reg) (c : Cond) (a : Byte) (s : State), s.stepCounter = .s2 →
    ∃ t, exec (.load r c a) s = .next t ∧ t.ramAddr = a ∧
      (s.applies c → t.reg r = s.memRead a) ∧
      (∀ q : Reg, q ≠ r ∨ ¬ s.applies c → t.reg q = s.reg q) ∧
      sameFlags s t ∧ t.pc = s.pc ∧ t.dec = s.dec ∧ sameRam s t ∧ sameIo s t ∧ sameRom s t ∧ endsInstruction s t

/-- `loadImmediate` (41_transfer.md R133): the register gets the payload; the RAM address register is not changed. -/
def Obligations.LoadImmediateWritesPayload : Prop :=
  ∀ (r : Reg) (c : Cond) (v : Byte) (s : State), s.stepCounter = .s2 →
    ∃ t, exec (.loadImmediate r c v) s = .next t ∧
      (s.applies c → t.reg r = v) ∧
      (∀ q : Reg, q ≠ r ∨ ¬ s.applies c → t.reg q = s.reg q) ∧
      sameFlags s t ∧ t.pc = s.pc ∧ t.ramAddr = s.ramAddr ∧ t.dec = s.dec ∧ sameRam s t ∧ sameIo s t ∧ sameRom s t ∧
      endsInstruction s t

/-- `add` (42_alu.md R154): r2 gets the RAM byte at the payload, r1 the sum, the flags its carry and zero (D3). -/
def Obligations.AddAccumulatesRamByte : Prop :=
  ∀ (c : Cond) (a : Byte) (s : State), s.stepCounter = .s2 →
    ∃ t, exec (.add c a) s = .next t ∧ t.ramAddr = a ∧
      (s.applies c → t.r2 = s.memRead a ∧ t.r1.toNat = (s.r1.toNat + (s.memRead a).toNat) % 256 ∧
        (t.overflow = true ↔ s.r1.toNat + (s.memRead a).toNat > 255) ∧ (t.zero = true ↔ t.r1 = 0#8)) ∧
      (¬ s.applies c → t.r1 = s.r1 ∧ t.r2 = s.r2 ∧ sameFlags s t) ∧
      t.r3 = s.r3 ∧ t.r4 = s.r4 ∧ t.pc = s.pc ∧ t.dec = s.dec ∧ sameRam s t ∧ sameIo s t ∧ sameRom s t ∧
      endsInstruction s t

/-- `addImmediate` (42_alu.md R155): as `add`, with the payload as operand B; the RAM address register is not changed. -/
def Obligations.AddImmediateAccumulatesPayload : Prop :=
  ∀ (c : Cond) (v : Byte) (s : State), s.stepCounter = .s2 →
    ∃ t, exec (.addImmediate c v) s = .next t ∧ t.ramAddr = s.ramAddr ∧
      (s.applies c → t.r2 = v ∧ t.r1.toNat = (s.r1.toNat + v.toNat) % 256 ∧
        (t.overflow = true ↔ s.r1.toNat + v.toNat > 255) ∧ (t.zero = true ↔ t.r1 = 0#8)) ∧
      (¬ s.applies c → t.r1 = s.r1 ∧ t.r2 = s.r2 ∧ sameFlags s t) ∧
      t.r3 = s.r3 ∧ t.r4 = s.r4 ∧ t.pc = s.pc ∧ t.dec = s.dec ∧ sameRam s t ∧ sameIo s t ∧ sameRom s t ∧
      endsInstruction s t

/-- `sub` (42_alu.md R156): r2 gets the RAM byte at the payload, r1 the difference, the flags its borrow and zero (D3). -/
def Obligations.SubSubtractsRamByte : Prop :=
  ∀ (c : Cond) (a : Byte) (s : State), s.stepCounter = .s2 →
    ∃ t, exec (.sub c a) s = .next t ∧ t.ramAddr = a ∧
      (s.applies c → t.r2 = s.memRead a ∧ t.r1.toNat = (s.r1.toNat + 256 - (s.memRead a).toNat) % 256 ∧
        (t.overflow = true ↔ s.r1.toNat < (s.memRead a).toNat) ∧ (t.zero = true ↔ s.r1 = s.memRead a)) ∧
      (¬ s.applies c → t.r1 = s.r1 ∧ t.r2 = s.r2 ∧ sameFlags s t) ∧
      t.r3 = s.r3 ∧ t.r4 = s.r4 ∧ t.pc = s.pc ∧ t.dec = s.dec ∧ sameRam s t ∧ sameIo s t ∧ sameRom s t ∧
      endsInstruction s t

/-- `subImmediate` (42_alu.md R157): as `sub`, with the payload as operand B; the RAM address register is not changed. -/
def Obligations.SubImmediateSubtractsPayload : Prop :=
  ∀ (c : Cond) (v : Byte) (s : State), s.stepCounter = .s2 →
    ∃ t, exec (.subImmediate c v) s = .next t ∧ t.ramAddr = s.ramAddr ∧
      (s.applies c → t.r2 = v ∧ t.r1.toNat = (s.r1.toNat + 256 - v.toNat) % 256 ∧
        (t.overflow = true ↔ s.r1.toNat < v.toNat) ∧ (t.zero = true ↔ s.r1 = v)) ∧
      (¬ s.applies c → t.r1 = s.r1 ∧ t.r2 = s.r2 ∧ sameFlags s t) ∧
      t.r3 = s.r3 ∧ t.r4 = s.r4 ∧ t.pc = s.pc ∧ t.dec = s.dec ∧ sameRam s t ∧ sameIo s t ∧ sameRom s t ∧
      endsInstruction s t

/-- `jump` (43_control_output.md R170): the program counter gets the RAM byte at the payload. -/
def Obligations.JumpTakesTargetFromRam : Prop :=
  ∀ (c : Cond) (a : Byte) (s : State), s.stepCounter = .s2 →
    ∃ t, exec (.jump c a) s = .next t ∧ t.ramAddr = a ∧
      (s.applies c → t.pc = s.memRead a) ∧ (¬ s.applies c → t.pc = s.pc) ∧
      sameRegs s t ∧ sameFlags s t ∧ t.dec = s.dec ∧ sameRam s t ∧ sameIo s t ∧ sameRom s t ∧ endsInstruction s t

/-- `jumpImmediate` (43_control_output.md R171): the program counter gets the payload. -/
def Obligations.JumpImmediateTakesPayload : Prop :=
  ∀ (c : Cond) (target : Byte) (s : State), s.stepCounter = .s2 →
    ∃ t, exec (.jumpImmediate c target) s = .next t ∧ t.ramAddr = s.ramAddr ∧
      (s.applies c → t.pc = target) ∧ (¬ s.applies c → t.pc = s.pc) ∧
      sameRegs s t ∧ sameFlags s t ∧ t.dec = s.dec ∧ sameRam s t ∧ sameIo s t ∧ sameRom s t ∧ endsInstruction s t

/-- `out` (43_control_output.md R172): the decimal-output register gets the register. -/
def Obligations.OutCopiesRegister : Prop :=
  ∀ (r : Reg) (c : Cond) (s : State), s.stepCounter = .s2 →
    ∃ t, exec (.out r c) s = .next t ∧
      (s.applies c → t.dec = s.reg r) ∧ (¬ s.applies c → t.dec = s.dec) ∧
      sameRegs s t ∧ sameFlags s t ∧ t.pc = s.pc ∧ t.ramAddr = s.ramAddr ∧ sameRam s t ∧ sameIo s t ∧ sameRom s t ∧
      endsInstruction s t

/-- `halt` (43_control_output.md R173; R112, D11): taken, `finished` is set with the step counter at 4 and the lines
{halt}; not taken, it ends as any instruction. -/
def Obligations.HaltStopsTheMachine : Prop :=
  ∀ (c : Cond) (s : State), s.stepCounter = .s2 →
    ∃ t, exec (.halt c) s = .next t ∧
      (s.applies c → t.finished = true ∧ t.stepCounter = .s4 ∧ t.lines.asserted = [.halt] ∧ t.ir = s.ir ∧
        t.romAddr = s.romAddr) ∧
      (¬ s.applies c → endsInstruction s t) ∧
      sameRegs s t ∧ sameFlags s t ∧ t.pc = s.pc ∧ t.ramAddr = s.ramAddr ∧ t.dec = s.dec ∧ sameRam s t ∧ sameIo s t ∧
      sameRom s t

/-! ### A step -/

/-- A step runs the decoded instruction: at a boundary whose two ROM bytes decode to `i`, `step` is `exec i` at the state
after the fetch, which has `romAddr` at the instruction's index, its upper byte in `ir` and the program counter moved on
(R103, R104, R116, D4, D7). -/
def Obligations.StepRunsTheDecodedInstruction : Prop :=
  ∀ (s : State) (i : Instr), s.nextIs i →
    step s = exec i s.fetch ∧ s.fetch.stepCounter = .s2 ∧ s.fetch.romAddr = s.pc ∧
      s.fetch.ir = s.romRead (romAddress false s.pc) ∧ s.fetch.pc = s.pc + 1#8 ∧
      s.fetch.finished = s.finished ∧ sameRegs s s.fetch ∧ sameFlags s s.fetch ∧ s.fetch.ramAddr = s.ramAddr ∧
      s.fetch.dec = s.dec ∧ sameRam s s.fetch ∧ sameIo s s.fetch ∧ sameRom s s.fetch

/-- An instruction is its ticks: under every parameter setting, from every state, the meanings written from files 41 to 43
give the state that the microcode table and the line effects of file 40 give, tick by tick up to the boundary
(R100, R102, R109, R108; decisions D7, D8, D17; log 4). -/
def Obligations.StepIsItsTicks : Prop :=
  ∀ (p : Config.Params) (s : State), stepWith p s = runTicksWith p s.stepCounter.ticksToBoundary s

/-- The core's step is the step under the default parameters of R9 (the model's choice, log 1 and log 2). -/
def Obligations.StepUsesDefaultParameters : Prop :=
  params.ioBase.val = 128 ∧ params.mmioActive = true ∧ params.invalidOpcode = .inert ∧
  ∀ s : State, step s = stepWith params s

/-- With the default policy no step faults and none is refused: every state has a next state (R200, D23, D10; log 2). -/
def Obligations.NoStepFaults : Prop :=
  ∀ s : State, ∃ t, step s = .next t

/-- An invalid opcode (R113, D10) at a boundary: with the policy `inert` nothing but the fetch happens and the program goes
on at the next index; with the policy `fault` the machine stops with the ROM index. -/
def Obligations.InvalidOpcodeFollowsThePolicy : Prop :=
  ∀ (p : Config.Params) (s : State), s.finished = false → s.stepCounter = .s0 →
    11 ≤ (s.romRead (romAddress false s.pc)).toNat / 16 → (s.romRead (romAddress false s.pc)).toNat / 16 ≤ 14 →
    (p.invalidOpcode = .fault → stepWith p s = .fault (.invalidOpcode s.pc)) ∧
    (p.invalidOpcode = .inert → ∃ t, stepWith p s = .next t ∧ t.finished = false ∧ t.stepCounter = .s0 ∧
      t.lines = Lines.off ∧ t.pc = s.pc + 1#8 ∧ t.romAddr = s.pc ∧ t.ir = s.romRead (romAddress false s.pc) ∧
      sameRegs s t ∧ sameFlags s t ∧ t.ramAddr = s.ramAddr ∧ t.dec = s.dec ∧ sameRam s t ∧ sameIo s t ∧ sameRom s t)

/-! ### Ticks -/

/-- R28: `finished` is set only by a tick that asserts `halt`, no tick clears it, while it is true every tick leaves the
whole state unchanged, and it is false after `load`. -/
def Obligations.FinishedIsSetOnlyByHalt : Prop :=
  (∀ (p : Config.Params) (s : State), s.finished = true → clockTickWith p s = .next s) ∧
  (∀ (p : Config.Params) (s t : State), s.finished = false → clockTickWith p s = .next t →
    t.finished = t.lines.halt) ∧
  (∀ (q : Program) (s t : State), hostLoad q s = .next t → t.finished = false)

/-- R27, R115: a cyclic counter of six values; `next` and `previous` wrap modulo 6; every tick of an unfinished machine,
whatever it asserts, advances it; it is 0 after `load`. -/
def Obligations.StepCounterCyclesThroughSix : Prop :=
  (∀ st : MicroStep, st.toNat < 6 ∧ st.next.toNat = (st.toNat + 1) % 6 ∧ st.previous.toNat = (st.toNat + 5) % 6) ∧
  (∀ (p : Config.Params) (s t : State), s.finished = false → clockTickWith p s = .next t →
    t.stepCounter.toNat = (s.stepCounter.toNat + 1) % 6) ∧
  (∀ (q : Program) (s t : State), hostLoad q s = .next t → t.stepCounter.toNat = 0)

/-- R153: the flags are written exactly in a tick (of an unfinished machine) that asserts `aluSetFlags`, from the r1, r2
and `aluNegate` of that tick. -/
def Obligations.FlagsLatchOnlyOnAluSetFlags : Prop :=
  ∀ (p : Config.Params) (s t : State), clockTickWith p s = .next t →
    (s.finished = false ∧ t.lines.aluSetFlags = true →
      t.overflow = aluOverflow s.r1 s.r2 t.lines.aluNegate ∧ t.zero = aluZero s.r1 s.r2 t.lines.aluNegate) ∧
    (s.finished = true ∨ t.lines.aluSetFlags = false → sameFlags s t)

/-- Step 0 (R103, D7): the lines, and that `romAddr` gets the program counter and nothing else changes. The clock level is
free and the count of its values the model's own (log 3). -/
def Obligations.TickZeroLatchesRomAddress : Prop :=
  ∀ (p : Config.Params) (s : State), s.finished = false → s.stepCounter = .s0 →
    ∃ t, clockTickWith p s = .next t ∧ t.lines.asserted = [.romAddressIn, .pcOut] ∧
      t = { s with romAddr := s.pc, stepCounter := .s1, lines := t.lines, clockLevel := t.clockLevel, draws := t.draws }

/-- Step 1 (R104, D4, D7): the lines, and that `ir` gets the upper byte, from bank 0, and the program counter advances. -/
def Obligations.TickOneFetchesUpperByte : Prop :=
  ∀ (p : Config.Params) (s : State), s.finished = false → s.stepCounter = .s1 →
    ∃ t, clockTickWith p s = .next t ∧
      t.lines.asserted = [.romValueOut, .pcIncrement, .instructionRegisterIn] ∧ t.pc.toNat = (s.pc.toNat + 1) % 256 ∧
      t = { s with ir := s.rom.read s.romAddr.toNat, pc := t.pc, stepCounter := .s2, lines := t.lines,
                   clockLevel := t.clockLevel, draws := t.draws }

/-- Step 2 (R105, D7, D8): for the RAM-addressed operations, whatever the condition and the flag, the RAM address register
gets the payload, from bank 1; for the others no line is asserted and nothing changes. -/
def Obligations.TickTwoLatchesRamAddress : Prop :=
  ∀ (p : Config.Params) (s : State) (i : Instr), s.finished = false → s.stepCounter = .s2 →
    decode s.ir s.payload = .ok i →
    ∃ t, clockTickWith p s = .next t ∧
      if i.operation ∈ [Operation.store, .load, .add, .sub, .jump] then
        t.lines.asserted = [.romValueOut, .romBankBit9, .ramAddressIn] ∧
        t = { s with ramAddr := s.rom.read (256 + s.romAddr.toNat), stepCounter := .s3, lines := t.lines,
                     clockLevel := t.clockLevel, draws := t.draws }
      else
        t.lines.asserted = [] ∧
        t = { s with stepCounter := .s3, lines := t.lines, clockLevel := t.clockLevel, draws := t.draws }

/-- The gate (R106, D8): at steps 3 and 4 of an instruction with condition `aluOverflow`, with overflow false, no line is
asserted and nothing but the step counter changes. -/
def Obligations.GatedStepsAreNoOps : Prop :=
  ∀ (p : Config.Params) (s : State) (i : Instr), s.finished = false → s.stepCounter = .s3 ∨ s.stepCounter = .s4 →
    decode s.ir s.payload = .ok i → i.condition = .aluOverflow → s.overflow = false →
    ∃ t, clockTickWith p s = .next t ∧ t.lines.asserted = [] ∧
      t = { s with stepCounter := s.stepCounter.next, lines := t.lines, clockLevel := t.clockLevel, draws := t.draws }

/-- The gate is constant within an instruction (the spec's inference R107): no tick but that of step 4 changes the overflow
flag, so that steps 3 and 4 see the same. -/
def Obligations.OverflowChangesOnlyAtStepFour : Prop :=
  ∀ (p : Config.Params) (s t : State), s.stepCounter ≠ .s4 → clockTickWith p s = .next t → t.overflow = s.overflow

/-- Bus discipline (the spec's inference R110; D25): every line set of the table has at most one output line, no input line
without an output line, never both `pcIn` and `pcIncrement`, and never `line24` (D13). -/
def Obligations.TableKeepsBusDiscipline : Prop :=
  ∀ (st : MicroStep) (ir : Byte) (ov : Bool),
    ((microcode st ir ov).asserted.filter Line.isOutputLine).length ≤ 1 ∧
    ((microcode st ir ov).asserted.filter Line.isOutputLine = [] →
      (microcode st ir ov).asserted.filter Line.isInputLine = []) ∧
    ¬ ((microcode st ir ov).pcIn = true ∧ (microcode st ir ov).pcIncrement = true) ∧
    (microcode st ir ov).line24 = false

/-- Six ticks an instruction (R108, R112, R230, D7, D11): from a boundary, six ticks that all occur end at the next
boundary, or the machine has finished in the fourth tick and not before. -/
def Obligations.InstructionTakesSixTicks : Prop :=
  ∀ (p : Config.Params) (s t : State), s.finished = false → s.stepCounter = .s0 → runTicksWith p 6 s = .next t →
    (t.finished = false ∧ t.stepCounter = .s0) ∨
    (t.finished = true ∧ t.stepCounter = .s4 ∧ runTicksWith p 4 s = .next t ∧
      ∃ u, runTicksWith p 3 s = .next u ∧ u.finished = false)

/-! ### Invariants -/

/-- The invariants hold at reset (the program of 0 instructions, log 5), under every parameter setting. -/
def Obligations.ResetMeetsTheInvariants : Prop :=
  State.reset.memoriesWf ∧ (∀ p : Config.Params, State.reset.ioMirrors p) ∧ State.reset.frozenAfterHalt ∧
    State.reset.atBoundary

/-- Every step, and every tick, under every parameter setting, keeps ROM, RAM and the IO array canonical and inside their
address spaces (R61, R64, R65, R68). -/
def Obligations.MemoriesStayWellFormed : Prop :=
  ∀ (p : Config.Params) (s t : State), s.memoriesWf →
    (stepWith p s = .next t → t.memoriesWf) ∧ (clockTickWith p s = .next t → t.memoriesWf)

/-- The IO array always holds what the RAM window holds: every step, and every tick, under every parameter setting keeps it
(the model's inference from R66; the parameters are D12's). -/
def Obligations.IoArrayMirrorsRamWindow : Prop :=
  ∀ (p : Config.Params) (s t : State), s.ioMirrors p →
    (stepWith p s = .next t → t.ioMirrors p) ∧ (clockTickWith p s = .next t → t.ioMirrors p)

/-- A finished machine is one that a taken halt froze at step 4 with the lines {halt} (R112, D11); and every step ends at
an instruction boundary (R116). -/
def Obligations.StepsEndAtBoundariesOrFrozen : Prop :=
  ∀ (p : Config.Params) (s t : State), s.frozenAfterHalt → stepWith p s = .next t → t.frozenAfterHalt ∧ t.atBoundary

/-! ### Rules of the whole machine -/

/-- ROM is never written by the running machine (R61, R75): no step and no tick changes it. -/
def Obligations.RomNeverChanges : Prop :=
  ∀ (p : Config.Params) (s t : State), (stepWith p s = .next t → t.rom = s.rom) ∧
    (clockTickWith p s = .next t → t.rom = s.rom)

/-- Only a store whose condition holds changes RAM, and only at its own address (R64, R131). -/
def Obligations.OnlyStoreWritesRam : Prop :=
  ∀ (s t : State) (i : Instr) (x : Byte), s.nextIs i → step s = .next t → t.memRead x ≠ s.memRead x →
    ∃ (r : Reg) (c : Cond), i = .store r c x ∧ s.applies c

/-- Only an ALU operation whose condition holds changes the flags (R227). -/
def Obligations.OnlyAluOperationsWriteFlags : Prop :=
  ∀ (s t : State) (i : Instr), s.nextIs i → step s = .next t → ¬ sameFlags s t →
    i.operation ∈ [Operation.add, .addImmediate, .sub, .subImmediate] ∧ s.applies i.condition

/-- Sequential flow (the spec's inference R174; D4): after every instruction other than a taken jump the program counter is
the next index, modulo 256. -/
def Obligations.SequentialUnlessJumpTaken : Prop :=
  ∀ (s t : State) (i : Instr), s.nextIs i → step s = .next t →
    t.pc.toNat = (s.pc.toNat + 1) % 256 ∨
      (i.operation ∈ [Operation.jump, .jumpImmediate] ∧ s.applies i.condition)

/-- R32: the zero flag is written only in a tick that asserts `aluSetFlags`, with the ALU's zero value, and is false after
`load`; no instruction and no condition reads it: with another value of it, every step is the same but for that flag. -/
def Obligations.ZeroFlagIsNeverRead : Prop :=
  (∀ (p : Config.Params) (s t : State), clockTickWith p s = .next t →
    t.zero = if s.finished = false ∧ t.lines.aluSetFlags = true then aluZero s.r1 s.r2 t.lines.aluNegate else s.zero) ∧
  (∀ (p : Config.Params) (s t : State) (z : Bool), stepWith p s = .next t →
    ∃ z', stepWith p { s with zero := z } = .next { t with zero := z' }) ∧
  (∀ (q : Program) (s t : State), hostLoad q s = .next t → t.zero = false)

/-- The output devices are never read back (R209): with another IO array, another IO address and another decimal output,
every step is the same but for these. -/
def Obligations.OutputDevicesAreNeverRead : Prop :=
  ∀ (p : Config.Params) (s t : State) (io : Memory) (ioAddr : BitVec 7) (dec : Byte), stepWith p s = .next t →
    ∃ io' ioAddr' dec', stepWith p { s with io := io, ioAddr := ioAddr, dec := dec } =
      .next { t with io := io', ioAddr := ioAddr', dec := dec' }

/-! ### Memory writes, load and the snapshot -/

/-- `MemWrite` (R64, R66; D12), under every parameter setting: RAM gets the byte at the one address; the IO array and its
address register follow exactly when the flag is on and the address is in the window. -/
def Obligations.MemWriteMirrorsExactlyTheWindow : Prop :=
  ∀ (p : Config.Params) (s : State) (a v : Byte),
    (∀ x : Byte, (s.memWriteWith p a v).memRead x = if x = a then v else s.memRead x) ∧
    (if p.mmioActive = true ∧ p.ioBase.val ≤ a.toNat ∧ a.toNat < p.ioBase.val + 128 then
      (s.memWriteWith p a v).ioAddr.toNat = a.toNat - p.ioBase.val ∧
      ∀ j : BitVec 7, (s.memWriteWith p a v).io.read j.toNat =
        if j.toNat = a.toNat - p.ioBase.val then v else s.io.read j.toNat
    else
      (s.memWriteWith p a v).io = s.io ∧ (s.memWriteWith p a v).ioAddr = s.ioAddr)

/-- `load` (R221, R222; D15, D19, D20, D24): at most 256 instructions give the fresh state, whatever the old one was; more
are refused. -/
def Obligations.LoadBuildsTheFreshState : Prop :=
  ∀ (q : Program) (s : State),
    (q.length ≤ 256 → ∃ t, hostLoad q s = .next t ∧ t.finished = false ∧ t.clockLevel = false ∧
      (∀ r : Reg, t.reg r = 0#8) ∧ t.pc = 0#8 ∧ t.ir = 0#8 ∧ t.stepCounter = .s0 ∧ t.dec = 0#8 ∧ t.overflow = false ∧
      t.zero = false ∧ (∀ x : Byte, t.memRead x = 0#8) ∧ t.ramAddr = 0#8 ∧ t.romAddr = 0#8 ∧
      (∀ j : BitVec 7, t.io.read j.toNat = 0#8) ∧ t.ioAddr = 0#7 ∧ t.lines.asserted = [] ∧ t.rom = romImage q) ∧
    (256 < q.length → hostLoad q s = .refused .programTooLong)

/-- The ROM image (R63, D6) and its fetch: at a boundary with the image of `q` in ROM, the instruction fetched at index `k`
is the `k`-th of `q`, and past its end `noOp`. -/
def Obligations.LoadedProgramIsFetched : Prop :=
  ∀ (q : Program) (s : State), q.length ≤ 256 → s.rom = romImage q → s.stepCounter = .s0 →
    s.fetch.current = .ok ((q[s.pc.toNat]?).getD (.noOp .noCondition))

/-- The model's `withFetchWord` (log 5): the next fetch reads the instruction of the word. -/
def Obligations.PlacedWordIsFetched : Prop :=
  ∀ (s : State) (w : Nat) (i : Instr), decodeTableWord 16 w = some i → (s.withFetchWord 16 w).nextIs i

/-- The packed control word (R38, D13): the bit of a line's pin is set exactly when the line is asserted. -/
def Obligations.ControlWordPacksTheLines : Prop :=
  ∀ (ls : Lines) (l : Line), ls.controlWord.getLsbD (24 - l.pin) = ls.get l

/-- The 24 lines with the pins of R36's table (D13), and the classes of R37 (D14): its input lines, its output lines, and
the six for which both predicates are false, the third class `modifier`. -/
def Obligations.LinesHavePinsAndClasses : Prop :=
  [Line.reg1In, .reg1Out, .reg2In, .reg2Out, .reg3In, .reg3Out, .reg4In, .reg4Out, .romAddressIn, .romValueOut,
    .romBankBit9, .ramAddressIn, .ramValueIn, .ramValueOut, .pcIn, .pcOut, .pcIncrement, .aluNegate, .aluOut,
    .aluSetFlags, .instructionRegisterIn, .decimalOutputIn, .halt, .line24].map Line.pin =
    (List.range 24).map (· + 1) ∧
  allLines.map Line.pin = (List.range 24).map (· + 1) ∧ (∀ l : Line, l ∈ allLines) ∧
  (∀ l : Line, l.isInputLine = true ↔
    l ∈ [Line.reg1In, .reg2In, .reg3In, .reg4In, .romAddressIn, .ramAddressIn, .ramValueIn, .pcIn,
      .instructionRegisterIn, .decimalOutputIn]) ∧
  (∀ l : Line, l.isOutputLine = true ↔
    l ∈ [Line.reg1Out, .reg2Out, .reg3Out, .reg4Out, .romValueOut, .ramValueOut, .pcOut, .aluOut]) ∧
  (allLines.filter Line.isInputLine).length = 10 ∧ (allLines.filter Line.isOutputLine).length = 8 ∧
  (∀ l : Line, (l.isInputLine = false ∧ l.isOutputLine = false) ↔
    l ∈ [Line.romBankBit9, .pcIncrement, .aluNegate, .aluSetFlags, .halt, .line24]) ∧
  (∀ l : Line, l.lineClass = .modifier ↔ (l.isInputLine = false ∧ l.isOutputLine = false))

/-- The snapshot's derived values (R40, D19), from the stored lines. -/
def Obligations.SnapshotValuesAreDerived : Prop :=
  ∀ s : State,
    ((s.aluOutput.toNat : Int) =
      (if s.lines.aluNegate then (s.r1.toNat : Int) - s.r2.toNat else (s.r1.toNat : Int) + s.r2.toNat) % 256) ∧
    s.ramValue = s.ram.read s.ramAddr.toNat ∧
    s.romValue = s.rom.read ((if s.lines.romBankBit9 then 256 else 0) + s.romAddr.toNat) ∧
    s.ioValue = s.io.read s.ioAddr.toNat
end

