-- ==== Sys2Proof/Laws/Memory.lean ====
section
/-! SUPPORT. The laws of a memory: a read after a write, the frame of a write, and that every operation keeps the canonical
form and the bounds. -/

namespace Sys2Proof.Machine

/-! ### Reading cells -/

theorem lookupCell_dropCell_same (a : Nat) (m : List Host.Cell) :
    lookupCell a (dropCell a m) = Memory.unlisted := by
  induction m with
  | nil => rfl
  | cons c m ih =>
    by_cases h : c.1 = a
    · simpa [dropCell, h] using ih
    · simpa [dropCell, lookupCell, h] using ih

theorem lookupCell_dropCell_other {a b : Nat} (h : b ≠ a) (m : List Host.Cell) :
    lookupCell b (dropCell a m) = lookupCell b m := by
  induction m with
  | nil => rfl
  | cons c m ih =>
    by_cases hc : c.1 = a
    · have hb : ¬ a = b := fun e => h e.symm
      simpa [dropCell, lookupCell, hc, hb] using ih
    · by_cases hb : c.1 = b <;> simp [dropCell, lookupCell, hc, hb, h, ih]

theorem lookupCell_insertCell_same (a : Nat) (v : Byte) (m : List Host.Cell)
    (h : ∀ c ∈ m, c.1 ≠ a) : lookupCell a (insertCell a v m) = v := by
  induction m with
  | nil => simp [insertCell, lookupCell]
  | cons c m ih =>
    have hc : c.1 ≠ a := h c (by simp)
    have hm : lookupCell a (insertCell a v m) = v := ih fun d hd => h d (by simp [hd])
    by_cases hl : a < c.1 <;> simp [insertCell, lookupCell, hl, hc, hm]

theorem lookupCell_insertCell_other {a b : Nat} (h : b ≠ a) (v : Byte) (m : List Host.Cell) :
    lookupCell b (insertCell a v m) = lookupCell b m := by
  have hab : ¬ a = b := fun e => h e.symm
  induction m with
  | nil => simp [insertCell, lookupCell, hab]
  | cons c m ih =>
    by_cases hl : a < c.1
    · simp [insertCell, lookupCell, hl, hab]
    · by_cases hb : c.1 = b
      · have hl' : ¬ a < b := hb ▸ hl
        simp [insertCell, lookupCell, hb, hl']
      · simp [insertCell, lookupCell, hl, hb, ih]

/-! ### Which cells there are -/

theorem mem_dropCell {a : Nat} {m : List Host.Cell} {c : Host.Cell} :
    c ∈ dropCell a m ↔ c ∈ m ∧ c.1 ≠ a := by
  induction m with
  | nil => simp [dropCell]
  | cons d m ih =>
    by_cases hd : d.1 = a
    · simp only [dropCell, hd, if_true, ih, List.mem_cons]
      constructor
      · rintro ⟨h, hne⟩
        exact ⟨.inr h, hne⟩
      · rintro ⟨rfl | h, hne⟩
        · exact absurd hd hne
        · exact ⟨h, hne⟩
    · simp only [dropCell, hd, if_false, List.mem_cons, ih]
      constructor
      · rintro (rfl | ⟨h, hne⟩)
        · exact ⟨.inl rfl, hd⟩
        · exact ⟨.inr h, hne⟩
      · rintro ⟨rfl | h, hne⟩
        · exact .inl rfl
        · exact .inr ⟨h, hne⟩

theorem mem_insertCell {a : Nat} {v : Byte} {m : List Host.Cell} {c : Host.Cell} :
    c ∈ insertCell a v m ↔ c = (a, v) ∨ c ∈ m := by
  induction m with
  | nil => simp [insertCell]
  | cons d m ih =>
    by_cases hl : a < d.1
    · simp [insertCell, hl]
    · simp only [insertCell, hl, if_false, List.mem_cons, ih]
      tauto

/-! ### Order -/

theorem pairwise_dropCell {a : Nat} {m : List Host.Cell}
    (h : m.Pairwise fun c d => c.1 < d.1) : (dropCell a m).Pairwise fun c d => c.1 < d.1 := by
  induction m with
  | nil => simp [dropCell]
  | cons d m ih =>
    obtain ⟨hd, hm⟩ := List.pairwise_cons.mp h
    by_cases hda : d.1 = a
    · simpa [dropCell, hda] using ih hm
    · simp only [dropCell, hda, if_false]
      exact List.pairwise_cons.mpr ⟨fun c hc => hd c (mem_dropCell.mp hc).1, ih hm⟩

theorem pairwise_insertCell {a : Nat} {v : Byte} {m : List Host.Cell}
    (h : m.Pairwise fun c d => c.1 < d.1) (hne : ∀ c ∈ m, c.1 ≠ a) :
    (insertCell a v m).Pairwise fun c d => c.1 < d.1 := by
  induction m with
  | nil => simp [insertCell]
  | cons d m ih =>
    obtain ⟨hd, hm⟩ := List.pairwise_cons.mp h
    by_cases hl : a < d.1
    · simp only [insertCell, hl, if_true]
      refine List.pairwise_cons.mpr ⟨fun c hc => ?_, h⟩
      rcases List.mem_cons.mp hc with rfl | hc
      · exact hl
      · exact lt_trans hl (hd c hc)
    · simp only [insertCell, hl, if_false]
      refine List.pairwise_cons.mpr ⟨fun c hc => ?_, ih hm fun c hc => hne c (by simp [hc])⟩
      rcases mem_insertCell.mp hc with rfl | hc
      · have hda : d.1 ≠ a := hne d (by simp)
        show d.1 < a
        omega
      · exact hd c hc

/-! ### The laws of a memory -/

@[simp] theorem Memory.read_empty (a : Nat) : Memory.empty.read a = Memory.unlisted := rfl

/-- A read after a write to the same address gives the byte written. -/
theorem Memory.read_write_same (m : Memory) (a : Nat) (v : Byte) : (m.write a v).read a = v := by
  unfold Memory.write
  split
  · next h => simpa [Memory.read, h] using lookupCell_dropCell_same a m.cells
  · exact lookupCell_insertCell_same a v _ fun c hc => (mem_dropCell.mp hc).2

/-- A write leaves every other address alone. -/
theorem Memory.read_write_other (m : Memory) {a b : Nat} (h : b ≠ a) (v : Byte) :
    (m.write a v).read b = m.read b := by
  unfold Memory.write
  split
  · exact lookupCell_dropCell_other h m.cells
  · exact (lookupCell_insertCell_other h v _).trans (lookupCell_dropCell_other h m.cells)

/-- A write at one address, read at any. -/
theorem Memory.read_write (m : Memory) (a b : Nat) (v : Byte) :
    (m.write a v).read b = if b = a then v else m.read b := by
  by_cases h : b = a
  · subst h
    simpa using Memory.read_write_same m b v
  · simpa [h] using Memory.read_write_other m h v

/-- A write keeps the canonical form. -/
theorem Memory.wf_write {m : Memory} (h : m.wf) (a : Nat) (v : Byte) : (m.write a v).wf := by
  obtain ⟨hp, hu⟩ := h
  unfold Memory.write
  split
  · exact ⟨pairwise_dropCell hp, fun c hc => hu c (mem_dropCell.mp hc).1⟩
  · next hv =>
    refine ⟨pairwise_insertCell (pairwise_dropCell hp) fun c hc => (mem_dropCell.mp hc).2, fun c hc => ?_⟩
    rcases mem_insertCell.mp hc with rfl | hc
    · exact hv
    · exact hu c (mem_dropCell.mp hc).1

/-- A write below the size keeps the bounds. -/
theorem Memory.within_write {m : Memory} {size : Nat} (h : m.within size) {a : Nat} (ha : a < size) (v : Byte) :
    (m.write a v).within size := by
  unfold Memory.write
  split
  · exact fun c hc => h c (mem_dropCell.mp hc).1
  · intro c hc
    rcases mem_insertCell.mp hc with rfl | hc
    · exact ha
    · exact h c (mem_dropCell.mp hc).1

theorem Memory.wf_empty : Memory.empty.wf := ⟨List.Pairwise.nil, by simp [Memory.empty]⟩

theorem Memory.within_empty (size : Nat) : Memory.empty.within size := by simp [Memory.empty]

/-! ### Equal memories are equal data -/

theorem lookupCell_eq_unlisted {a : Nat} {m : List Host.Cell} (h : ∀ c ∈ m, c.1 ≠ a) :
    lookupCell a m = Memory.unlisted := by
  induction m with
  | nil => rfl
  | cons d m ih =>
    have hd : d.1 ≠ a := h d (by simp)
    simpa [lookupCell, hd] using ih fun c hc => h c (by simp [hc])

/-- Two canonical memories that read the same everywhere are equal. -/
theorem Memory.eq_of_read_eq {m n : Memory} (hm : m.wf) (hn : n.wf) (h : ∀ a, m.read a = n.read a) : m = n := by
  obtain ⟨cs⟩ := m
  obtain ⟨ds⟩ := n
  suffices cs = ds by rw [this]
  replace h : ∀ a, lookupCell a cs = lookupCell a ds := h
  obtain ⟨hpc, huc⟩ := hm
  obtain ⟨hpd, hud⟩ := hn
  dsimp only at hpc huc hpd hud
  induction cs generalizing ds with
  | nil =>
    cases ds with
    | nil => rfl
    | cons d ds =>
      have := h d.1
      simp only [lookupCell, if_true] at this
      exact absurd this.symm (hud d (by simp))
  | cons c cs ih =>
    obtain ⟨hc, hpc⟩ := List.pairwise_cons.mp hpc
    cases ds with
    | nil =>
      have := h c.1
      simp only [lookupCell, if_true] at this
      exact absurd this (huc c (by simp))
    | cons d ds =>
      obtain ⟨hd, hpd⟩ := List.pairwise_cons.mp hpd
      have hcu : c.2 ≠ Memory.unlisted := huc c (by simp)
      have hdu : d.2 ≠ Memory.unlisted := hud d (by simp)
      have key : c.1 = d.1 := by
        rcases lt_trichotomy c.1 d.1 with hlt | heq | hgt
        · have := h c.1
          have hne : ∀ e ∈ d :: ds, e.1 ≠ c.1 := by
            intro e he
            rcases List.mem_cons.mp he with rfl | he
            · omega
            · have := hd e he
              omega
          rw [lookupCell_eq_unlisted hne] at this
          simp only [lookupCell, if_true] at this
          exact absurd this hcu
        · exact heq
        · have := h d.1
          have hne : ∀ e ∈ c :: cs, e.1 ≠ d.1 := by
            intro e he
            rcases List.mem_cons.mp he with rfl | he
            · omega
            · have := hc e he
              omega
          rw [lookupCell_eq_unlisted hne] at this
          simp only [lookupCell, if_true] at this
          exact absurd this.symm hdu
      have hv : c.2 = d.2 := by
        have := h c.1
        simpa [lookupCell, key] using this
      have htail : cs = ds := by
        refine ih ds (fun a => ?_) hpc (fun e he => huc e (by simp [he])) hpd fun e he => hud e (by simp [he])
        by_cases ha : a = c.1
        · rw [lookupCell_eq_unlisted (fun e he => by have := hc e he; omega),
            lookupCell_eq_unlisted (fun e he => by have := hd e he; omega)]
        · have h' := h a
          have h1 : ¬ c.1 = a := fun e => ha e.symm
          have h2 : ¬ d.1 = a := fun e => ha (by rw [key, e])
          simpa [lookupCell, h1, h2] using h'
      rw [htail, Prod.ext key hv]

end Sys2Proof.Machine
end

