-- ==== Sys2Proof/Laws/State.lean ====
section
/-! SUPPORT. One lemma per field per named update of State, so that no later proof unfolds a record update. -/

namespace Sys2Proof.Machine

variable (s : State)


/-! ### latchAlu -/

@[simp] theorem State.latchAlu_finished (neg : Bool) : (s.latchAlu neg).finished = s.finished := rfl
@[simp] theorem State.latchAlu_clockLevel (neg : Bool) : (s.latchAlu neg).clockLevel = s.clockLevel := rfl
@[simp] theorem State.latchAlu_r1 (neg : Bool) : (s.latchAlu neg).r1 = aluValue s.r1 s.r2 neg := rfl
@[simp] theorem State.latchAlu_r2 (neg : Bool) : (s.latchAlu neg).r2 = s.r2 := rfl
@[simp] theorem State.latchAlu_r3 (neg : Bool) : (s.latchAlu neg).r3 = s.r3 := rfl
@[simp] theorem State.latchAlu_r4 (neg : Bool) : (s.latchAlu neg).r4 = s.r4 := rfl
@[simp] theorem State.latchAlu_pc (neg : Bool) : (s.latchAlu neg).pc = s.pc := rfl
@[simp] theorem State.latchAlu_ir (neg : Bool) : (s.latchAlu neg).ir = s.ir := rfl
@[simp] theorem State.latchAlu_stepCounter (neg : Bool) : (s.latchAlu neg).stepCounter = s.stepCounter := rfl
@[simp] theorem State.latchAlu_dec (neg : Bool) : (s.latchAlu neg).dec = s.dec := rfl
@[simp] theorem State.latchAlu_overflow (neg : Bool) : (s.latchAlu neg).overflow = aluOverflow s.r1 s.r2 neg := rfl
@[simp] theorem State.latchAlu_zero (neg : Bool) : (s.latchAlu neg).zero = aluZero s.r1 s.r2 neg := rfl
@[simp] theorem State.latchAlu_ram (neg : Bool) : (s.latchAlu neg).ram = s.ram := rfl
@[simp] theorem State.latchAlu_ramAddr (neg : Bool) : (s.latchAlu neg).ramAddr = s.ramAddr := rfl
@[simp] theorem State.latchAlu_rom (neg : Bool) : (s.latchAlu neg).rom = s.rom := rfl
@[simp] theorem State.latchAlu_romAddr (neg : Bool) : (s.latchAlu neg).romAddr = s.romAddr := rfl
@[simp] theorem State.latchAlu_io (neg : Bool) : (s.latchAlu neg).io = s.io := rfl
@[simp] theorem State.latchAlu_ioAddr (neg : Bool) : (s.latchAlu neg).ioAddr = s.ioAddr := rfl
@[simp] theorem State.latchAlu_lines (neg : Bool) : (s.latchAlu neg).lines = s.lines := rfl
@[simp] theorem State.latchAlu_draws (neg : Bool) : (s.latchAlu neg).draws = s.draws := rfl

/-! ### endTick -/

@[simp] theorem State.endTick_finished (ls : Lines) : (s.endTick ls).finished = s.finished := rfl
@[simp] theorem State.endTick_clockLevel (ls : Lines) : (s.endTick ls).clockLevel = Config.clockLevelDraw s.draws := rfl
@[simp] theorem State.endTick_r1 (ls : Lines) : (s.endTick ls).r1 = s.r1 := rfl
@[simp] theorem State.endTick_r2 (ls : Lines) : (s.endTick ls).r2 = s.r2 := rfl
@[simp] theorem State.endTick_r3 (ls : Lines) : (s.endTick ls).r3 = s.r3 := rfl
@[simp] theorem State.endTick_r4 (ls : Lines) : (s.endTick ls).r4 = s.r4 := rfl
@[simp] theorem State.endTick_pc (ls : Lines) : (s.endTick ls).pc = s.pc := rfl
@[simp] theorem State.endTick_ir (ls : Lines) : (s.endTick ls).ir = s.ir := rfl
@[simp] theorem State.endTick_stepCounter (ls : Lines) : (s.endTick ls).stepCounter = s.stepCounter.next := rfl
@[simp] theorem State.endTick_dec (ls : Lines) : (s.endTick ls).dec = s.dec := rfl
@[simp] theorem State.endTick_overflow (ls : Lines) : (s.endTick ls).overflow = s.overflow := rfl
@[simp] theorem State.endTick_zero (ls : Lines) : (s.endTick ls).zero = s.zero := rfl
@[simp] theorem State.endTick_ram (ls : Lines) : (s.endTick ls).ram = s.ram := rfl
@[simp] theorem State.endTick_ramAddr (ls : Lines) : (s.endTick ls).ramAddr = s.ramAddr := rfl
@[simp] theorem State.endTick_rom (ls : Lines) : (s.endTick ls).rom = s.rom := rfl
@[simp] theorem State.endTick_romAddr (ls : Lines) : (s.endTick ls).romAddr = s.romAddr := rfl
@[simp] theorem State.endTick_io (ls : Lines) : (s.endTick ls).io = s.io := rfl
@[simp] theorem State.endTick_ioAddr (ls : Lines) : (s.endTick ls).ioAddr = s.ioAddr := rfl
@[simp] theorem State.endTick_lines (ls : Lines) : (s.endTick ls).lines = ls := rfl
@[simp] theorem State.endTick_draws (ls : Lines) : (s.endTick ls).draws = s.draws + 1 := rfl

/-! ### elapse -/

@[simp] theorem State.elapse_finished (n : Nat) (t : MicroStep) (ls : Lines) : (s.elapse n t ls).finished = s.finished := rfl
@[simp] theorem State.elapse_clockLevel (n : Nat) (t : MicroStep) (ls : Lines) : (s.elapse n t ls).clockLevel = Config.clockLevelDraw (s.draws + n) := rfl
@[simp] theorem State.elapse_r1 (n : Nat) (t : MicroStep) (ls : Lines) : (s.elapse n t ls).r1 = s.r1 := rfl
@[simp] theorem State.elapse_r2 (n : Nat) (t : MicroStep) (ls : Lines) : (s.elapse n t ls).r2 = s.r2 := rfl
@[simp] theorem State.elapse_r3 (n : Nat) (t : MicroStep) (ls : Lines) : (s.elapse n t ls).r3 = s.r3 := rfl
@[simp] theorem State.elapse_r4 (n : Nat) (t : MicroStep) (ls : Lines) : (s.elapse n t ls).r4 = s.r4 := rfl
@[simp] theorem State.elapse_pc (n : Nat) (t : MicroStep) (ls : Lines) : (s.elapse n t ls).pc = s.pc := rfl
@[simp] theorem State.elapse_ir (n : Nat) (t : MicroStep) (ls : Lines) : (s.elapse n t ls).ir = s.ir := rfl
@[simp] theorem State.elapse_stepCounter (n : Nat) (t : MicroStep) (ls : Lines) : (s.elapse n t ls).stepCounter = t := rfl
@[simp] theorem State.elapse_dec (n : Nat) (t : MicroStep) (ls : Lines) : (s.elapse n t ls).dec = s.dec := rfl
@[simp] theorem State.elapse_overflow (n : Nat) (t : MicroStep) (ls : Lines) : (s.elapse n t ls).overflow = s.overflow := rfl
@[simp] theorem State.elapse_zero (n : Nat) (t : MicroStep) (ls : Lines) : (s.elapse n t ls).zero = s.zero := rfl
@[simp] theorem State.elapse_ram (n : Nat) (t : MicroStep) (ls : Lines) : (s.elapse n t ls).ram = s.ram := rfl
@[simp] theorem State.elapse_ramAddr (n : Nat) (t : MicroStep) (ls : Lines) : (s.elapse n t ls).ramAddr = s.ramAddr := rfl
@[simp] theorem State.elapse_rom (n : Nat) (t : MicroStep) (ls : Lines) : (s.elapse n t ls).rom = s.rom := rfl
@[simp] theorem State.elapse_romAddr (n : Nat) (t : MicroStep) (ls : Lines) : (s.elapse n t ls).romAddr = s.romAddr := rfl
@[simp] theorem State.elapse_io (n : Nat) (t : MicroStep) (ls : Lines) : (s.elapse n t ls).io = s.io := rfl
@[simp] theorem State.elapse_ioAddr (n : Nat) (t : MicroStep) (ls : Lines) : (s.elapse n t ls).ioAddr = s.ioAddr := rfl
@[simp] theorem State.elapse_lines (n : Nat) (t : MicroStep) (ls : Lines) : (s.elapse n t ls).lines = ls := rfl
@[simp] theorem State.elapse_draws (n : Nat) (t : MicroStep) (ls : Lines) : (s.elapse n t ls).draws = s.draws + n + 1 := rfl

/-! ### complete -/

@[simp] theorem State.complete_finished : (s.complete).finished = s.finished := rfl
@[simp] theorem State.complete_clockLevel : (s.complete).clockLevel = Config.clockLevelDraw (s.draws + s.stepCounter.afterNext) := rfl
@[simp] theorem State.complete_r1 : (s.complete).r1 = s.r1 := rfl
@[simp] theorem State.complete_r2 : (s.complete).r2 = s.r2 := rfl
@[simp] theorem State.complete_r3 : (s.complete).r3 = s.r3 := rfl
@[simp] theorem State.complete_r4 : (s.complete).r4 = s.r4 := rfl
@[simp] theorem State.complete_pc : (s.complete).pc = s.pc := rfl
@[simp] theorem State.complete_ir : (s.complete).ir = s.ir := rfl
@[simp] theorem State.complete_stepCounter : (s.complete).stepCounter = .s0 := rfl
@[simp] theorem State.complete_dec : (s.complete).dec = s.dec := rfl
@[simp] theorem State.complete_overflow : (s.complete).overflow = s.overflow := rfl
@[simp] theorem State.complete_zero : (s.complete).zero = s.zero := rfl
@[simp] theorem State.complete_ram : (s.complete).ram = s.ram := rfl
@[simp] theorem State.complete_ramAddr : (s.complete).ramAddr = s.ramAddr := rfl
@[simp] theorem State.complete_rom : (s.complete).rom = s.rom := rfl
@[simp] theorem State.complete_romAddr : (s.complete).romAddr = s.romAddr := rfl
@[simp] theorem State.complete_io : (s.complete).io = s.io := rfl
@[simp] theorem State.complete_ioAddr : (s.complete).ioAddr = s.ioAddr := rfl
@[simp] theorem State.complete_lines : (s.complete).lines = Lines.off := rfl
@[simp] theorem State.complete_draws : (s.complete).draws = s.draws + s.stepCounter.afterNext + 1 := rfl

/-! ### stop -/

@[simp] theorem State.stop_finished : (s.stop).finished = true := rfl
@[simp] theorem State.stop_clockLevel : (s.stop).clockLevel = Config.clockLevelDraw (s.draws + (s.stepCounter.afterNext - 2)) := rfl
@[simp] theorem State.stop_r1 : (s.stop).r1 = s.r1 := rfl
@[simp] theorem State.stop_r2 : (s.stop).r2 = s.r2 := rfl
@[simp] theorem State.stop_r3 : (s.stop).r3 = s.r3 := rfl
@[simp] theorem State.stop_r4 : (s.stop).r4 = s.r4 := rfl
@[simp] theorem State.stop_pc : (s.stop).pc = s.pc := rfl
@[simp] theorem State.stop_ir : (s.stop).ir = s.ir := rfl
@[simp] theorem State.stop_stepCounter : (s.stop).stepCounter = .s4 := rfl
@[simp] theorem State.stop_dec : (s.stop).dec = s.dec := rfl
@[simp] theorem State.stop_overflow : (s.stop).overflow = s.overflow := rfl
@[simp] theorem State.stop_zero : (s.stop).zero = s.zero := rfl
@[simp] theorem State.stop_ram : (s.stop).ram = s.ram := rfl
@[simp] theorem State.stop_ramAddr : (s.stop).ramAddr = s.ramAddr := rfl
@[simp] theorem State.stop_rom : (s.stop).rom = s.rom := rfl
@[simp] theorem State.stop_romAddr : (s.stop).romAddr = s.romAddr := rfl
@[simp] theorem State.stop_io : (s.stop).io = s.io := rfl
@[simp] theorem State.stop_ioAddr : (s.stop).ioAddr = s.ioAddr := rfl
@[simp] theorem State.stop_lines : (s.stop).lines = Lines.halting := rfl
@[simp] theorem State.stop_draws : (s.stop).draws = s.draws + (s.stepCounter.afterNext - 2) + 1 := rfl

/-! ### setReg -/

@[simp] theorem State.setReg_finished (r : Reg) (v : Byte) : (s.setReg r v).finished = s.finished := by cases r <;> rfl
@[simp] theorem State.setReg_clockLevel (r : Reg) (v : Byte) : (s.setReg r v).clockLevel = s.clockLevel := by cases r <;> rfl
@[simp] theorem State.setReg_pc (r : Reg) (v : Byte) : (s.setReg r v).pc = s.pc := by cases r <;> rfl
@[simp] theorem State.setReg_ir (r : Reg) (v : Byte) : (s.setReg r v).ir = s.ir := by cases r <;> rfl
@[simp] theorem State.setReg_stepCounter (r : Reg) (v : Byte) : (s.setReg r v).stepCounter = s.stepCounter := by cases r <;> rfl
@[simp] theorem State.setReg_dec (r : Reg) (v : Byte) : (s.setReg r v).dec = s.dec := by cases r <;> rfl
@[simp] theorem State.setReg_overflow (r : Reg) (v : Byte) : (s.setReg r v).overflow = s.overflow := by cases r <;> rfl
@[simp] theorem State.setReg_zero (r : Reg) (v : Byte) : (s.setReg r v).zero = s.zero := by cases r <;> rfl
@[simp] theorem State.setReg_ram (r : Reg) (v : Byte) : (s.setReg r v).ram = s.ram := by cases r <;> rfl
@[simp] theorem State.setReg_ramAddr (r : Reg) (v : Byte) : (s.setReg r v).ramAddr = s.ramAddr := by cases r <;> rfl
@[simp] theorem State.setReg_rom (r : Reg) (v : Byte) : (s.setReg r v).rom = s.rom := by cases r <;> rfl
@[simp] theorem State.setReg_romAddr (r : Reg) (v : Byte) : (s.setReg r v).romAddr = s.romAddr := by cases r <;> rfl
@[simp] theorem State.setReg_io (r : Reg) (v : Byte) : (s.setReg r v).io = s.io := by cases r <;> rfl
@[simp] theorem State.setReg_ioAddr (r : Reg) (v : Byte) : (s.setReg r v).ioAddr = s.ioAddr := by cases r <;> rfl
@[simp] theorem State.setReg_lines (r : Reg) (v : Byte) : (s.setReg r v).lines = s.lines := by cases r <;> rfl
@[simp] theorem State.setReg_draws (r : Reg) (v : Byte) : (s.setReg r v).draws = s.draws := by cases r <;> rfl

/-- A register write, read back by any register. -/
theorem State.reg_setReg (r q : Reg) (v : Byte) : (s.setReg r v).reg q = if q = r then v else s.reg q := by
  cases r <;> cases q <;> rfl

@[simp] theorem State.reg_setReg_same (r : Reg) (v : Byte) : (s.setReg r v).reg r = v := by
  cases r <;> rfl

theorem State.reg_setReg_other {r q : Reg} (h : q ≠ r) (v : Byte) : (s.setReg r v).reg q = s.reg q := by
  simp [State.reg_setReg, h]

/-! ### memWriteWith -/

@[simp] theorem State.memWriteWith_finished (p : Config.Params) (a v : Byte) : (s.memWriteWith p a v).finished = s.finished := by
  unfold State.memWriteWith
  split <;> rfl
@[simp] theorem State.memWriteWith_clockLevel (p : Config.Params) (a v : Byte) : (s.memWriteWith p a v).clockLevel = s.clockLevel := by
  unfold State.memWriteWith
  split <;> rfl
@[simp] theorem State.memWriteWith_r1 (p : Config.Params) (a v : Byte) : (s.memWriteWith p a v).r1 = s.r1 := by
  unfold State.memWriteWith
  split <;> rfl
@[simp] theorem State.memWriteWith_r2 (p : Config.Params) (a v : Byte) : (s.memWriteWith p a v).r2 = s.r2 := by
  unfold State.memWriteWith
  split <;> rfl
@[simp] theorem State.memWriteWith_r3 (p : Config.Params) (a v : Byte) : (s.memWriteWith p a v).r3 = s.r3 := by
  unfold State.memWriteWith
  split <;> rfl
@[simp] theorem State.memWriteWith_r4 (p : Config.Params) (a v : Byte) : (s.memWriteWith p a v).r4 = s.r4 := by
  unfold State.memWriteWith
  split <;> rfl
@[simp] theorem State.memWriteWith_pc (p : Config.Params) (a v : Byte) : (s.memWriteWith p a v).pc = s.pc := by
  unfold State.memWriteWith
  split <;> rfl
@[simp] theorem State.memWriteWith_ir (p : Config.Params) (a v : Byte) : (s.memWriteWith p a v).ir = s.ir := by
  unfold State.memWriteWith
  split <;> rfl
@[simp] theorem State.memWriteWith_stepCounter (p : Config.Params) (a v : Byte) : (s.memWriteWith p a v).stepCounter = s.stepCounter := by
  unfold State.memWriteWith
  split <;> rfl
@[simp] theorem State.memWriteWith_dec (p : Config.Params) (a v : Byte) : (s.memWriteWith p a v).dec = s.dec := by
  unfold State.memWriteWith
  split <;> rfl
@[simp] theorem State.memWriteWith_overflow (p : Config.Params) (a v : Byte) : (s.memWriteWith p a v).overflow = s.overflow := by
  unfold State.memWriteWith
  split <;> rfl
@[simp] theorem State.memWriteWith_zero (p : Config.Params) (a v : Byte) : (s.memWriteWith p a v).zero = s.zero := by
  unfold State.memWriteWith
  split <;> rfl
@[simp] theorem State.memWriteWith_ramAddr (p : Config.Params) (a v : Byte) : (s.memWriteWith p a v).ramAddr = s.ramAddr := by
  unfold State.memWriteWith
  split <;> rfl
@[simp] theorem State.memWriteWith_rom (p : Config.Params) (a v : Byte) : (s.memWriteWith p a v).rom = s.rom := by
  unfold State.memWriteWith
  split <;> rfl
@[simp] theorem State.memWriteWith_romAddr (p : Config.Params) (a v : Byte) : (s.memWriteWith p a v).romAddr = s.romAddr := by
  unfold State.memWriteWith
  split <;> rfl
@[simp] theorem State.memWriteWith_lines (p : Config.Params) (a v : Byte) : (s.memWriteWith p a v).lines = s.lines := by
  unfold State.memWriteWith
  split <;> rfl
@[simp] theorem State.memWriteWith_draws (p : Config.Params) (a v : Byte) : (s.memWriteWith p a v).draws = s.draws := by
  unfold State.memWriteWith
  split <;> rfl

@[simp] theorem State.memWriteWith_ram (p : Config.Params) (a v : Byte) :
    (s.memWriteWith p a v).ram = s.ram.write a.toNat v := by
  unfold State.memWriteWith
  split <;> rfl

theorem State.memWriteWith_io (p : Config.Params) (a v : Byte) :
    (s.memWriteWith p a v).io = match ioIndex p a with | some j => s.io.write j.toNat v | none => s.io := by
  unfold State.memWriteWith
  split <;> simp [*]

theorem State.memWriteWith_ioAddr (p : Config.Params) (a v : Byte) :
    (s.memWriteWith p a v).ioAddr = match ioIndex p a with | some j => j | none => s.ioAddr := by
  unfold State.memWriteWith
  split <;> simp [*]

/-! ### latchRamAddr -/

@[simp] theorem State.latchRamAddr_finished (a : Byte) : (s.latchRamAddr a).finished = s.finished := by
  unfold State.latchRamAddr
  split <;> rfl
@[simp] theorem State.latchRamAddr_clockLevel (a : Byte) : (s.latchRamAddr a).clockLevel = s.clockLevel := by
  unfold State.latchRamAddr
  split <;> rfl
@[simp] theorem State.latchRamAddr_r1 (a : Byte) : (s.latchRamAddr a).r1 = s.r1 := by
  unfold State.latchRamAddr
  split <;> rfl
@[simp] theorem State.latchRamAddr_r2 (a : Byte) : (s.latchRamAddr a).r2 = s.r2 := by
  unfold State.latchRamAddr
  split <;> rfl
@[simp] theorem State.latchRamAddr_r3 (a : Byte) : (s.latchRamAddr a).r3 = s.r3 := by
  unfold State.latchRamAddr
  split <;> rfl
@[simp] theorem State.latchRamAddr_r4 (a : Byte) : (s.latchRamAddr a).r4 = s.r4 := by
  unfold State.latchRamAddr
  split <;> rfl
@[simp] theorem State.latchRamAddr_pc (a : Byte) : (s.latchRamAddr a).pc = s.pc := by
  unfold State.latchRamAddr
  split <;> rfl
@[simp] theorem State.latchRamAddr_ir (a : Byte) : (s.latchRamAddr a).ir = s.ir := by
  unfold State.latchRamAddr
  split <;> rfl
@[simp] theorem State.latchRamAddr_stepCounter (a : Byte) : (s.latchRamAddr a).stepCounter = s.stepCounter := by
  unfold State.latchRamAddr
  split <;> rfl
@[simp] theorem State.latchRamAddr_dec (a : Byte) : (s.latchRamAddr a).dec = s.dec := by
  unfold State.latchRamAddr
  split <;> rfl
@[simp] theorem State.latchRamAddr_overflow (a : Byte) : (s.latchRamAddr a).overflow = s.overflow := by
  unfold State.latchRamAddr
  split <;> rfl
@[simp] theorem State.latchRamAddr_zero (a : Byte) : (s.latchRamAddr a).zero = s.zero := by
  unfold State.latchRamAddr
  split <;> rfl
@[simp] theorem State.latchRamAddr_ram (a : Byte) : (s.latchRamAddr a).ram = s.ram := by
  unfold State.latchRamAddr
  split <;> rfl
@[simp] theorem State.latchRamAddr_ramAddr (a : Byte) : (s.latchRamAddr a).ramAddr = if s.due .s2 then a else s.ramAddr := by
  unfold State.latchRamAddr
  split <;> rfl
@[simp] theorem State.latchRamAddr_rom (a : Byte) : (s.latchRamAddr a).rom = s.rom := by
  unfold State.latchRamAddr
  split <;> rfl
@[simp] theorem State.latchRamAddr_romAddr (a : Byte) : (s.latchRamAddr a).romAddr = s.romAddr := by
  unfold State.latchRamAddr
  split <;> rfl
@[simp] theorem State.latchRamAddr_io (a : Byte) : (s.latchRamAddr a).io = s.io := by
  unfold State.latchRamAddr
  split <;> rfl
@[simp] theorem State.latchRamAddr_ioAddr (a : Byte) : (s.latchRamAddr a).ioAddr = s.ioAddr := by
  unfold State.latchRamAddr
  split <;> rfl
@[simp] theorem State.latchRamAddr_lines (a : Byte) : (s.latchRamAddr a).lines = s.lines := by
  unfold State.latchRamAddr
  split <;> rfl
@[simp] theorem State.latchRamAddr_draws (a : Byte) : (s.latchRamAddr a).draws = s.draws := by
  unfold State.latchRamAddr
  split <;> rfl

/-! ### Registers after updates that write none -/

@[simp] theorem State.endTick_reg (ls : Lines) (q : Reg) : (s.endTick ls).reg q = s.reg q := by
  cases q <;> simp [State.reg]
@[simp] theorem State.elapse_reg (n : Nat) (t : MicroStep) (ls : Lines) (q : Reg) : (s.elapse n t ls).reg q = s.reg q := by
  cases q <;> simp [State.reg]
@[simp] theorem State.complete_reg (q : Reg) : (s.complete).reg q = s.reg q := by
  cases q <;> simp [State.reg]
@[simp] theorem State.stop_reg (q : Reg) : (s.stop).reg q = s.reg q := by
  cases q <;> simp [State.reg]
@[simp] theorem State.memWriteWith_reg (p : Config.Params) (a v : Byte) (q : Reg) : (s.memWriteWith p a v).reg q = s.reg q := by
  cases q <;> simp [State.reg]
@[simp] theorem State.latchRamAddr_reg (a : Byte) (q : Reg) : (s.latchRamAddr a).reg q = s.reg q := by
  cases q <;> simp [State.reg]

end Sys2Proof.Machine
end

