-- ==== Sys2Proof/Laws/Ops.lean ====
section
/-! SUPPORT. What each shared operation does, said once: the ALU, addresses, RAM writes and their mirroring, gated writes,
the fetch. -/

namespace Sys2Proof.Machine

/-! ### The ALU (42_alu.md R150 to R152) -/

theorem trunc8_toNat (v : Int) : ((trunc8 v).toNat : Int) = v % 256 := by
  have h0 : 0 ≤ v % 256 := Int.emod_nonneg _ (by decide)
  have h1 : v % 256 < 256 := Int.emod_lt_of_pos _ (by decide)
  unfold trunc8
  rw [BitVec.toNat_ofNat, Nat.mod_eq_of_lt (by omega)]
  omega

theorem aluValue_add_toNat (a b : Byte) : (aluValue a b false).toNat = (a.toNat + b.toNat) % 256 := by
  have h := trunc8_toNat (aluRaw a b false)
  have hr : aluRaw a b false = (a.toNat : Int) + (b.toNat : Int) := rfl
  unfold aluValue
  omega

theorem aluValue_sub_toNat (a b : Byte) : (aluValue a b true).toNat = (a.toNat + 256 - b.toNat) % 256 := by
  have h := trunc8_toNat (aluRaw a b true)
  have hr : aluRaw a b true = (a.toNat : Int) - (b.toNat : Int) := rfl
  have hb : b.toNat < 256 := b.isLt
  unfold aluValue
  omega

theorem aluOverflow_add (a b : Byte) : aluOverflow a b false = decide (255 < a.toNat + b.toNat) := by
  have hr : aluRaw a b false = (a.toNat : Int) + (b.toNat : Int) := rfl
  by_cases h : 255 < a.toNat + b.toNat
  · have h1 : ¬ aluRaw a b false ≤ 255 := by omega
    simp [aluOverflow, h, h1]
  · have h1 : aluRaw a b false ≤ 255 := by omega
    have h0 : 0 ≤ aluRaw a b false := by omega
    simp [aluOverflow, h, h0, h1]

theorem aluOverflow_sub (a b : Byte) : aluOverflow a b true = decide (a.toNat < b.toNat) := by
  have hr : aluRaw a b true = (a.toNat : Int) - (b.toNat : Int) := rfl
  have ha : a.toNat < 256 := a.isLt
  have h1 : aluRaw a b true ≤ 255 := by omega
  by_cases h : a.toNat < b.toNat
  · have h0 : ¬ 0 ≤ aluRaw a b true := by omega
    simp [aluOverflow, h, h0]
  · have h0 : 0 ≤ aluRaw a b true := by omega
    simp [aluOverflow, h, h0, h1]

theorem aluZero_eq (a b : Byte) (neg : Bool) : aluZero a b neg = decide ((aluValue a b neg).toNat = 0) := by
  have h : (aluValue a b neg = 0#8) ↔ (aluValue a b neg).toNat = 0 := by
    rw [← BitVec.toNat_inj]
    simp
  unfold aluZero
  by_cases hz : (aluValue a b neg).toNat = 0
  · simp [h.mpr hz]
  · have : ¬ aluValue a b neg = 0#8 := fun e => hz (h.mp e)
    simp [hz, this]

/-! ### Addresses (20_memory.md R61, R66) -/

/-- The 9-bit ROM address of a bank and an index. -/
theorem romAddress_toNat (bank : Bool) (a : Byte) :
    (romAddress bank a).toNat = (if bank then 256 else 0) + a.toNat := by
  have ha : a.toNat < 2 ^ 8 := a.isLt
  cases bank
  · simp only [romAddress, BitVec.toNat_append, BitVec.toNat_ofBool, Bool.toNat_false, Nat.zero_shiftLeft,
      Nat.zero_or, Bool.false_eq_true, if_false, Nat.zero_add]
  · simp only [romAddress, BitVec.toNat_append, BitVec.toNat_ofBool, Bool.toNat_true, if_true]
    rw [← Nat.shiftLeft_add_eq_or_of_lt ha]
    rfl

/-- Which RAM addresses are mirrored, and to which IO index. -/
theorem ioIndex_eq_some_iff (p : Config.Params) (a : Byte) (j : BitVec 7) :
    ioIndex p a = some j ↔ p.mmioActive = true ∧ a.toNat = p.ioBase.val + j.toNat := by
  have hj : j.toNat < 128 := j.isLt
  unfold ioIndex
  by_cases hm : p.mmioActive = true
  · by_cases hw : p.ioBase.val ≤ a.toNat ∧ a.toNat < p.ioBase.val + 128
    · simp only [hm, hw.1, hw.2, decide_true, Bool.and_self, if_true, Option.some.injEq, true_and,
        ← BitVec.toNat_inj, BitVec.toNat_ofNat]
      rw [Nat.mod_eq_of_lt (by omega)]
      omega
    · have : (decide (p.ioBase.val ≤ a.toNat) && decide (a.toNat < p.ioBase.val + 128)) = false := by
        simpa [← Bool.decide_and] using fun h => Nat.le_of_not_lt fun h' => hw ⟨h, h'⟩
      simp only [hm, Bool.true_and, this, Bool.false_eq_true, if_false, reduceCtorEq, true_and, false_iff]
      omega
  · simp [hm]

/-! ### RAM writes (20_memory.md R64, R66) -/

/-- RAM after a write. -/
theorem State.memRead_memWriteWith (p : Config.Params) (s : State) (a v x : Byte) :
    (s.memWriteWith p a v).memRead x = if x = a then v else s.memRead x := by
  simp only [State.memRead, State.memWriteWith_ram, Memory.read_write, BitVec.toNat_inj]

/-- The IO array and its address register after a RAM write: mirrored, or both as they were. -/
theorem State.memWriteWith_mirror (p : Config.Params) (s : State) (a v : Byte) :
    (∃ j, ioIndex p a = some j ∧ (s.memWriteWith p a v).io = s.io.write j.toNat v ∧ (s.memWriteWith p a v).ioAddr = j)
      ∨ (ioIndex p a = none ∧ (s.memWriteWith p a v).io = s.io ∧ (s.memWriteWith p a v).ioAddr = s.ioAddr) := by
  cases h : ioIndex p a with
  | none => exact .inr ⟨rfl, by simp [State.memWriteWith_io, h], by simp [State.memWriteWith_ioAddr, h]⟩
  | some j => exact .inl ⟨j, rfl, by simp [State.memWriteWith_io, h], by simp [State.memWriteWith_ioAddr, h]⟩

/-! ### Gated writes (40_sequencer.md R106) -/

/-- A gated write applies, or leaves the state as it was. -/
theorem State.onStep_cases (s : State) (k : MicroStep) (c : Cond) (w : State → State) :
    (s.due k = true ∧ gate c s.overflow = true ∧ s.onStep k c w = w s)
      ∨ ((s.due k = false ∨ gate c s.overflow = false) ∧ s.onStep k c w = s) := by
  unfold State.onStep
  cases s.due k <;> cases gate c s.overflow <;> simp

theorem State.onStep_taken {s : State} {k : MicroStep} {c : Cond} (hd : s.due k = true)
    (hg : gate c s.overflow = true) (w : State → State) : s.onStep k c w = w s := by
  simp [State.onStep, hd, hg]

theorem State.onStep_gated {s : State} {k : MicroStep} {c : Cond} (hg : gate c s.overflow = false)
    (w : State → State) : s.onStep k c w = s := by
  simp [State.onStep, hg]

theorem State.onStep_past {s : State} {k : MicroStep} {c : Cond} (hd : s.due k = false)
    (w : State → State) : s.onStep k c w = s := by
  simp [State.onStep, hd]

/-- What a gated write leaves alone, `onStep` leaves alone. -/
theorem State.onStep_keeps {α : Type} (f : State → α) (s : State) (k : MicroStep) (c : Cond) (w : State → State)
    (h : ∀ t, f (w t) = f t) : f (s.onStep k c w) = f s := by
  rcases s.onStep_cases k c w with ⟨_, _, e⟩ | ⟨_, e⟩ <;> rw [e]
  exact h s

/-- What a write of r2, the latching of the ALU and the end of the instruction leave alone, an ALU operation leaves
alone. -/
theorem State.aluPhase_keeps {α : Type} (f : State → α) (s : State) (c : Cond) (neg : Bool) (b : State → Byte)
    (hr : ∀ t v, f (t.setReg .r2 v) = f t) (ha : ∀ t, f (t.latchAlu neg) = f t) (he : ∀ t, f t.complete = f t) :
    f (s.aluPhase c neg b) = f s :=
  (he _).trans ((State.onStep_keeps f _ .s4 c _ ha).trans (State.onStep_keeps f s .s3 c _ fun t => hr t (b t)))

/-! ### The fetch (40_sequencer.md R103, R104) -/

/-- The fetch writes nothing but the fetch registers and what every tick writes. -/
theorem State.fetch_frame (s : State) :
    s.fetch.finished = s.finished ∧ s.fetch.r1 = s.r1 ∧ s.fetch.r2 = s.r2 ∧ s.fetch.r3 = s.r3 ∧ s.fetch.r4 = s.r4 ∧
    s.fetch.dec = s.dec ∧ s.fetch.overflow = s.overflow ∧ s.fetch.zero = s.zero ∧ s.fetch.ram = s.ram ∧
    s.fetch.ramAddr = s.ramAddr ∧ s.fetch.rom = s.rom ∧ s.fetch.io = s.io ∧ s.fetch.ioAddr = s.ioAddr := by
  unfold State.fetch
  cases s.stepCounter <;> simp [State.fetchAddress, State.fetchUpper]

/-- The fetch of an instruction from its boundary, in full. -/
theorem State.fetch_at_boundary {s : State} (h : s.stepCounter = .s0) :
    s.fetch = { s with
      romAddr := s.pc
      ir := s.romRead (romAddress false s.pc)
      pc := s.pc + 1#8
      stepCounter := .s2
      lines := Lines.fetchUpper
      clockLevel := Config.clockLevelDraw (s.draws + 1)
      draws := s.draws + 2 } := by
  simp [State.fetch, h, State.fetchAddress, State.fetchUpper, State.endTick, MicroStep.next, State.romRead]

/-- After the fetch the execute phase is on. -/
theorem State.fetch_due (s : State) : 2 ≤ s.fetch.stepCounter.toNat := by
  unfold State.fetch
  cases h : s.stepCounter <;> simp [State.fetchAddress, State.fetchUpper, h, MicroStep.next, MicroStep.toNat]

end Sys2Proof.Machine
end

