-- ==== Sys2Proof/Laws/Exec.lean ====
section
/-! SUPPORT. What the execute phase of any instruction can do, said once: it is built of a few writes, so that a property
those writes keep is kept by every instruction and by every step. -/

namespace Sys2Proof.Machine

/-- A property that every write of an execute phase keeps, and the passing of ticks. -/
structure KeptByExecute (p : Config.Params) (P : State → Prop) : Prop where
  ramAddr : ∀ s a, P s → P { s with ramAddr := a }
  reg : ∀ s r v, P s → P (s.setReg r v)
  memWrite : ∀ s a v, P s → P (s.memWriteWith p a v)
  alu : ∀ s neg, P s → P (s.latchAlu neg)
  pc : ∀ s v, P s → P { s with pc := v }
  dec : ∀ s v, P s → P { s with dec := v }
  complete : ∀ s, P s → P s.complete
  stop : ∀ s, P s → P s.stop

/-- A property that the fetch keeps too. -/
structure KeptByFetch (P : State → Prop) : Prop where
  fetchAddress : ∀ s, P s → P s.fetchAddress
  fetchUpper : ∀ s, P s → P s.fetchUpper

variable {p : Config.Params} {P : State → Prop}

theorem KeptByExecute.latchRamAddr (k : KeptByExecute p P) {s : State} (a : Byte) (h : P s) : P (s.latchRamAddr a) := by
  unfold State.latchRamAddr
  split
  · exact k.ramAddr s a h
  · exact h

theorem KeptByExecute.onStep {s : State} {st : MicroStep} {c : Cond} {w : State → State}
    (hw : ∀ t, P t → P (w t)) (h : P s) : P (s.onStep st c w) := by
  rcases s.onStep_cases st c w with ⟨_, _, e⟩ | ⟨_, e⟩ <;> rw [e]
  · exact hw s h
  · exact h

theorem KeptByExecute.aluPhase (k : KeptByExecute p P) {s : State} (c : Cond) (neg : Bool) (b : State → Byte)
    (h : P s) : P (s.aluPhase c neg b) :=
  k.complete _ (onStep (fun t => k.alu t neg) (onStep (fun t => k.reg t .r2 (b t)) h))

/-- Every instruction answers a next state, and keeps what its writes keep. -/
theorem KeptByExecute.execWith (k : KeptByExecute p P) (i : Instr) {s : State} (h : P s) :
    ∃ t, execWith p i s = .next t ∧ P t := by
  cases i with
  | noOp c => exact ⟨_, rfl, k.complete _ h⟩
  | store r c a => exact ⟨_, rfl, k.complete _ (onStep (fun t => k.memWrite t _ _) (k.latchRamAddr a h))⟩
  | load r c a => exact ⟨_, rfl, k.complete _ (onStep (fun t => k.reg t r _) (k.latchRamAddr a h))⟩
  | loadImmediate r c v => exact ⟨_, rfl, k.complete _ (onStep (fun t => k.reg t r v) h)⟩
  | add c a => exact ⟨_, rfl, k.aluPhase c false _ (k.latchRamAddr a h)⟩
  | addImmediate c v => exact ⟨_, rfl, k.aluPhase c false _ h⟩
  | sub c a => exact ⟨_, rfl, k.aluPhase c true _ (k.latchRamAddr a h)⟩
  | subImmediate c v => exact ⟨_, rfl, k.aluPhase c true _ h⟩
  | jump c a => exact ⟨_, rfl, k.complete _ (onStep (fun t => k.pc t _) (k.latchRamAddr a h))⟩
  | jumpImmediate c t => exact ⟨_, rfl, k.complete _ (onStep (fun u => k.pc u t) h)⟩
  | out r c => exact ⟨_, rfl, k.complete _ (onStep (fun t => k.dec t _) h)⟩
  | halt c =>
    simp only [Machine.execWith, execHalt]
    split
    · exact ⟨_, rfl, k.stop _ h⟩
    · exact ⟨_, rfl, k.complete _ h⟩

theorem KeptByFetch.fetch (f : KeptByFetch P) {s : State} (h : P s) : P s.fetch := by
  unfold State.fetch
  split
  · exact f.fetchUpper _ (f.fetchAddress _ h)
  · exact f.fetchUpper _ h
  all_goals exact h

/-- What an execute phase and the fetch keep, every step keeps. -/
theorem KeptByExecute.stepWith (k : KeptByExecute p P) (f : KeptByFetch P) {s t : State} (h : P s)
    (e : stepWith p s = .next t) : P t := by
  unfold Machine.stepWith at e
  split at e
  · cases e
    exact h
  · split at e
    · next i _ =>
      obtain ⟨u, hu, hp⟩ := k.execWith i (f.fetch h)
      rw [hu] at e
      cases e
      exact hp
    · unfold invalidOpcodeWith at e
      split at e
      · cases e
      · cases e
        exact k.complete _ (f.fetch h)

/-! ### The dispatch -/

/-- `exec` is `execWith` at the core's parameters. -/
theorem execWith_params (i : Instr) (s : State) : execWith params i s = exec i s := by
  cases i <;> rfl

end Sys2Proof.Machine
end

