-- ==== Sys2Proof/Laws/HostInterface.lean ====
section
/-! SUPPORT. The memories of the reset state, of a ROM image, of a placed word and of a RAM write are in canonical form, and
what `load` can do, said once. -/

namespace Sys2Proof.Machine

/-- The memories of the reset state list nothing. -/
theorem State.reset_memories_empty :
    State.reset.rom = Memory.empty ∧ State.reset.ram = Memory.empty ∧ State.reset.io = Memory.empty := ⟨rfl, rfl, rfl⟩

/-- A ROM image is in canonical form. -/
theorem romImageFrom_wf (p : Program) : ∀ k, (romImageFrom k p).wf := by
  induction p with
  | nil => exact fun _ => Memory.wf_empty
  | cons i rest ih => exact fun k => Memory.wf_write (Memory.wf_write (ih (k + 1)) _ _) _ _

/-- A placed word keeps the canonical form. -/
theorem placeWord_wf {rom : Memory} (h : rom.wf) (k u l : Byte) : (placeWord rom k u l).wf :=
  Memory.wf_write (Memory.wf_write h _ _) _ _

/-- A RAM write, mirrored or not, keeps the canonical form. -/
theorem State.memWriteWith_wf (p : Config.Params) {s : State} (h : s.ram.wf ∧ s.io.wf) (a v : Byte) :
    (s.memWriteWith p a v).ram.wf ∧ (s.memWriteWith p a v).io.wf := by
  unfold State.memWriteWith
  cases ioIndex p a with
  | none => exact ⟨Memory.wf_write h.1 _ _, h.2⟩
  | some j => exact ⟨Memory.wf_write h.1 _ _, Memory.wf_write h.2 _ _⟩

/-- `load` refuses a program of more than 256 instructions, and otherwise gives the reset state with its ROM image. -/
theorem hostLoad_cases (p : Program) (s : State) :
    (p.length ≤ 256 ∧ hostLoad p s = .next { State.reset with rom := romImage p, draws := s.draws }) ∨
    (256 < p.length ∧ hostLoad p s = .refused .programTooLong) := by
  unfold hostLoad Program.wellFormed
  by_cases h : p.length ≤ 256
  · exact .inl ⟨h, by simp [h]⟩
  · exact .inr ⟨by omega, by simp [h]⟩

end Sys2Proof.Machine
end

