-- ==== Sys2Proof/Laws/Lines.lean ====
section
/-! SUPPORT. The lines that `withRegIn` and `withRegOut` leave alone, one lemma each; and the line sets of the fetch. -/

namespace Sys2Proof.Machine

variable (ls : Lines) (r : Reg)

@[simp] theorem Lines.withRegIn_romAddressIn : (ls.withRegIn r).romAddressIn = ls.romAddressIn := by cases r <;> rfl
@[simp] theorem Lines.withRegIn_romValueOut : (ls.withRegIn r).romValueOut = ls.romValueOut := by cases r <;> rfl
@[simp] theorem Lines.withRegIn_romBankBit9 : (ls.withRegIn r).romBankBit9 = ls.romBankBit9 := by cases r <;> rfl
@[simp] theorem Lines.withRegIn_ramAddressIn : (ls.withRegIn r).ramAddressIn = ls.ramAddressIn := by cases r <;> rfl
@[simp] theorem Lines.withRegIn_ramValueIn : (ls.withRegIn r).ramValueIn = ls.ramValueIn := by cases r <;> rfl
@[simp] theorem Lines.withRegIn_ramValueOut : (ls.withRegIn r).ramValueOut = ls.ramValueOut := by cases r <;> rfl
@[simp] theorem Lines.withRegIn_pcIn : (ls.withRegIn r).pcIn = ls.pcIn := by cases r <;> rfl
@[simp] theorem Lines.withRegIn_pcOut : (ls.withRegIn r).pcOut = ls.pcOut := by cases r <;> rfl
@[simp] theorem Lines.withRegIn_pcIncrement : (ls.withRegIn r).pcIncrement = ls.pcIncrement := by cases r <;> rfl
@[simp] theorem Lines.withRegIn_aluNegate : (ls.withRegIn r).aluNegate = ls.aluNegate := by cases r <;> rfl
@[simp] theorem Lines.withRegIn_aluOut : (ls.withRegIn r).aluOut = ls.aluOut := by cases r <;> rfl
@[simp] theorem Lines.withRegIn_aluSetFlags : (ls.withRegIn r).aluSetFlags = ls.aluSetFlags := by cases r <;> rfl
@[simp] theorem Lines.withRegIn_instructionRegisterIn : (ls.withRegIn r).instructionRegisterIn = ls.instructionRegisterIn := by cases r <;> rfl
@[simp] theorem Lines.withRegIn_decimalOutputIn : (ls.withRegIn r).decimalOutputIn = ls.decimalOutputIn := by cases r <;> rfl
@[simp] theorem Lines.withRegIn_halt : (ls.withRegIn r).halt = ls.halt := by cases r <;> rfl
@[simp] theorem Lines.withRegIn_line24 : (ls.withRegIn r).line24 = ls.line24 := by cases r <;> rfl
@[simp] theorem Lines.withRegIn_reg1Out : (ls.withRegIn r).reg1Out = ls.reg1Out := by cases r <;> rfl
@[simp] theorem Lines.withRegIn_reg2Out : (ls.withRegIn r).reg2Out = ls.reg2Out := by cases r <;> rfl
@[simp] theorem Lines.withRegIn_reg3Out : (ls.withRegIn r).reg3Out = ls.reg3Out := by cases r <;> rfl
@[simp] theorem Lines.withRegIn_reg4Out : (ls.withRegIn r).reg4Out = ls.reg4Out := by cases r <;> rfl
@[simp] theorem Lines.withRegOut_romAddressIn : (ls.withRegOut r).romAddressIn = ls.romAddressIn := by cases r <;> rfl
@[simp] theorem Lines.withRegOut_romValueOut : (ls.withRegOut r).romValueOut = ls.romValueOut := by cases r <;> rfl
@[simp] theorem Lines.withRegOut_romBankBit9 : (ls.withRegOut r).romBankBit9 = ls.romBankBit9 := by cases r <;> rfl
@[simp] theorem Lines.withRegOut_ramAddressIn : (ls.withRegOut r).ramAddressIn = ls.ramAddressIn := by cases r <;> rfl
@[simp] theorem Lines.withRegOut_ramValueIn : (ls.withRegOut r).ramValueIn = ls.ramValueIn := by cases r <;> rfl
@[simp] theorem Lines.withRegOut_ramValueOut : (ls.withRegOut r).ramValueOut = ls.ramValueOut := by cases r <;> rfl
@[simp] theorem Lines.withRegOut_pcIn : (ls.withRegOut r).pcIn = ls.pcIn := by cases r <;> rfl
@[simp] theorem Lines.withRegOut_pcOut : (ls.withRegOut r).pcOut = ls.pcOut := by cases r <;> rfl
@[simp] theorem Lines.withRegOut_pcIncrement : (ls.withRegOut r).pcIncrement = ls.pcIncrement := by cases r <;> rfl
@[simp] theorem Lines.withRegOut_aluNegate : (ls.withRegOut r).aluNegate = ls.aluNegate := by cases r <;> rfl
@[simp] theorem Lines.withRegOut_aluOut : (ls.withRegOut r).aluOut = ls.aluOut := by cases r <;> rfl
@[simp] theorem Lines.withRegOut_aluSetFlags : (ls.withRegOut r).aluSetFlags = ls.aluSetFlags := by cases r <;> rfl
@[simp] theorem Lines.withRegOut_instructionRegisterIn : (ls.withRegOut r).instructionRegisterIn = ls.instructionRegisterIn := by cases r <;> rfl
@[simp] theorem Lines.withRegOut_decimalOutputIn : (ls.withRegOut r).decimalOutputIn = ls.decimalOutputIn := by cases r <;> rfl
@[simp] theorem Lines.withRegOut_halt : (ls.withRegOut r).halt = ls.halt := by cases r <;> rfl
@[simp] theorem Lines.withRegOut_line24 : (ls.withRegOut r).line24 = ls.line24 := by cases r <;> rfl
@[simp] theorem Lines.withRegOut_reg1In : (ls.withRegOut r).reg1In = ls.reg1In := by cases r <;> rfl
@[simp] theorem Lines.withRegOut_reg2In : (ls.withRegOut r).reg2In = ls.reg2In := by cases r <;> rfl
@[simp] theorem Lines.withRegOut_reg3In : (ls.withRegOut r).reg3In = ls.reg3In := by cases r <;> rfl
@[simp] theorem Lines.withRegOut_reg4In : (ls.withRegOut r).reg4In = ls.reg4In := by cases r <;> rfl

/-- Step 0 asserts the fetch lines whatever the instruction register holds (40_sequencer.md R103). -/
theorem microcode_s0 (ir : Byte) (ov : Bool) : microcode .s0 ir ov = Lines.fetchAddress := by
  unfold microcode
  split <;> rfl

/-- Step 1 asserts the fetch lines whatever the instruction register holds (40_sequencer.md R104). -/
theorem microcode_s1 (ir : Byte) (ov : Bool) : microcode .s1 ir ov = Lines.fetchUpper := by
  unfold microcode
  split <;> rfl

/-- Step 5 asserts nothing (40_sequencer.md R108). -/
theorem microcode_s5 (ir : Byte) (ov : Bool) : microcode .s5 ir ov = Lines.off := by
  unfold microcode
  split <;> rfl

end Sys2Proof.Machine
end

