-- ==== Sys2Proof/Laws/PerInstr.lean ====
section
/-! SUPPORT. Facts about every instruction as syntax, one lemma per constructor. -/

namespace Sys2Proof.Laws

/-- The instruction is well formed (30_encoding.md R92). -/
def WellFormed.Statement (i : Instr) : Prop := i.wellFormed = true

theorem WellFormed.noOp (c : Cond) : WellFormed.Statement (.noOp c) := rfl
theorem WellFormed.store (r : Reg) (c : Cond) (a : Byte) : WellFormed.Statement (.store r c a) := rfl
theorem WellFormed.load (r : Reg) (c : Cond) (a : Byte) : WellFormed.Statement (.load r c a) := rfl
theorem WellFormed.loadImmediate (r : Reg) (c : Cond) (v : Byte) : WellFormed.Statement (.loadImmediate r c v) := rfl
theorem WellFormed.add (c : Cond) (a : Byte) : WellFormed.Statement (.add c a) := rfl
theorem WellFormed.addImmediate (c : Cond) (v : Byte) : WellFormed.Statement (.addImmediate c v) := rfl
theorem WellFormed.sub (c : Cond) (a : Byte) : WellFormed.Statement (.sub c a) := rfl
theorem WellFormed.subImmediate (c : Cond) (v : Byte) : WellFormed.Statement (.subImmediate c v) := rfl
theorem WellFormed.jump (c : Cond) (a : Byte) : WellFormed.Statement (.jump c a) := rfl
theorem WellFormed.jumpImmediate (c : Cond) (t : Byte) : WellFormed.Statement (.jumpImmediate c t) := rfl
theorem WellFormed.out (r : Reg) (c : Cond) : WellFormed.Statement (.out r c) := rfl
theorem WellFormed.halt (c : Cond) : WellFormed.Statement (.halt c) := rfl

end Sys2Proof.Laws
end

