-- ==== Sys2Proof/Laws/Tick.lean ====
section
/-! SUPPORT. What one tick can do, said once (40_sequencer.md R100). -/

namespace Sys2Proof.Machine

/-- A tick of a finished machine changes nothing; a tick of an unfinished one faults, or applies its line set. -/
theorem clockTickWith_cases (p : Config.Params) (s : State) :
    (s.finished = true ∧ clockTickWith p s = .next s)
      ∨ (s.finished = false ∧ ∃ f, tickFault p s = some f ∧ clockTickWith p s = .fault f)
      ∨ (s.finished = false ∧ tickFault p s = none ∧
          clockTickWith p s = .next ((applyLines p (microcode s.stepCounter s.ir s.overflow) s).endTick
            (microcode s.stepCounter s.ir s.overflow))) := by
  unfold clockTickWith
  cases hf : s.finished
  · right
    cases ht : tickFault p s with
    | some f => exact .inl ⟨rfl, f, rfl, by simp⟩
    | none => exact .inr ⟨rfl, rfl, by simp⟩
  · exact .inl ⟨rfl, by simp⟩

/-- The next state of a tick of an unfinished machine. -/
theorem clockTickWith_next {p : Config.Params} {s t : State} (hf : s.finished = false)
    (h : clockTickWith p s = .next t) :
    tickFault p s = none ∧ t = (applyLines p (microcode s.stepCounter s.ir s.overflow) s).endTick
      (microcode s.stepCounter s.ir s.overflow) := by
  rcases clockTickWith_cases p s with ⟨h1, _⟩ | ⟨_, f, _, h2⟩ | ⟨_, h1, h2⟩
  · rw [hf] at h1
    cases h1
  · rw [h2] at h
    cases h
  · rw [h2] at h
    cases h
    exact ⟨h1, rfl⟩

/-- Only step 2 can fault. -/
theorem tickFault_eq_none {p : Config.Params} {s : State} (h : s.stepCounter ≠ .s2) : tickFault p s = none := by
  unfold tickFault
  split
  · rfl
  · unfold invalidOpcodeFault
    cases hp : p.invalidOpcode <;> cases hs : s.stepCounter <;> simp_all

/-- Which instruction an upper byte holds, but for the payload, does not depend on the payload, and the lines of an
instruction do not either: the table may be read with the instruction itself in the place of `decode(ir, 0)`. -/
theorem microcode_of_decode {u l : Byte} {i : Instr} (h : decode u l = .ok i) (st : MicroStep) (ov : Bool) :
    microcode st u ov = instrLines st i (gate i.condition ov) := by
  unfold decode at h
  unfold microcode decode
  cases hop : Operation.ofCode (opcodeField u) with
  | none => simp [hop] at h
  | some op =>
    simp only [hop, Except.ok.injEq] at h
    subst h
    cases op <;> rfl

/-- The lines of an invalid opcode. -/
theorem microcode_of_invalid {u l : Byte} {e : DecodeError} (h : decode u l = .error e) (st : MicroStep) (ov : Bool) :
    microcode st u ov = invalidLines st := by
  unfold decode at h
  unfold microcode decode
  cases hop : Operation.ofCode (opcodeField u) with
  | none => simp
  | some op => simp [hop] at h

/-- A valid upper byte is valid with every payload. -/
theorem decode_ok_any {u l : Byte} {i : Instr} (h : decode u l = .ok i) (l' : Byte) : ∃ j, decode u l' = .ok j := by
  unfold decode at h ⊢
  cases hop : Operation.ofCode (opcodeField u) with
  | none => simp [hop] at h
  | some op => exact ⟨_, rfl⟩

/-- An invalid upper byte is invalid with every payload. -/
theorem decode_error_any {u l : Byte} {e : DecodeError} (h : decode u l = .error e) (l' : Byte) :
    decode u l' = .error .invalidMachineCode := by
  unfold decode at h ⊢
  cases hop : Operation.ofCode (opcodeField u) with
  | none => rfl
  | some op => simp [hop] at h

/-- The tick of a valid instruction does not fault. -/
theorem tickFault_of_decode {p : Config.Params} {s : State} {l : Byte} {i : Instr} (h : decode s.ir l = .ok i) :
    tickFault p s = none := by
  obtain ⟨j, hj⟩ := decode_ok_any h 0#8
  simp [tickFault, hj]

/-- The tick of step 0 is the first half of the fetch. -/
theorem clockTickWith_at_s0 {p : Config.Params} {s : State} (hf : s.finished = false) (h : s.stepCounter = .s0) :
    clockTickWith p s = .next s.fetchAddress := by
  have ht : tickFault p s = none := tickFault_eq_none (by simp [h])
  simp only [clockTickWith, hf, ht, h, microcode_s0]
  simp [applyLines, latchRam, Lines.fetchAddress, drivenBus, State.fetchAddress, hf]

/-- The tick of step 1 is the second half of the fetch. -/
theorem clockTickWith_at_s1 {p : Config.Params} {s : State} (hf : s.finished = false) (h : s.stepCounter = .s1) :
    clockTickWith p s = .next s.fetchUpper := by
  have ht : tickFault p s = none := tickFault_eq_none (by simp [h])
  simp only [clockTickWith, hf, ht, h, microcode_s1]
  simp [applyLines, latchRam, Lines.fetchUpper, drivenBus, State.fetchUpper, hf]

/-- The tick of a valid instruction applies its own line set. -/
theorem clockTickWith_of_decode {p : Config.Params} {s : State} {l : Byte} {i : Instr} (hf : s.finished = false)
    (hd : decode s.ir l = .ok i) :
    clockTickWith p s = .next
      ((applyLines p (instrLines s.stepCounter i (gate i.condition s.overflow)) s).endTick
        (instrLines s.stepCounter i (gate i.condition s.overflow))) := by
  rw [← microcode_of_decode hd]
  simp [clockTickWith, hf, tickFault_of_decode hd]

/-- The memories a tick leaves: those before it, or those of one RAM write. -/
theorem applyLines_memories (p : Config.Params) (ls : Lines) (s : State) :
    (applyLines p ls s).rom = s.rom ∧
    ((applyLines p ls s).ram = s.ram ∧ (applyLines p ls s).io = s.io ∧ (applyLines p ls s).ioAddr = s.ioAddr
      ∨ ∃ v, (applyLines p ls s).ram = (s.memWriteWith p s.ramAddr v).ram ∧
          (applyLines p ls s).io = (s.memWriteWith p s.ramAddr v).io ∧
          (applyLines p ls s).ioAddr = (s.memWriteWith p s.ramAddr v).ioAddr) := by
  refine ⟨rfl, ?_⟩
  unfold applyLines latchRam
  by_cases h : ls.ramValueIn = true
  · exact .inr ⟨drivenBus ls s, by simp [h]⟩
  · exact .inl (by simp [h])

end Sys2Proof.Machine
end

