-- ==== Sys2Proof/Tests/Slice0.lean ====
section
/-! SUPPORT. Tests: ill-formed terms are refused, words of the spec decode, one step or one tick on small states, and a
witness for the hypotheses of each statement. Expected values come from the vectors V-… of 95_test_vectors.md, or from the
rule a docstring names. -/

namespace Sys2Proof.Tests
open Sys2Proof Sys2Proof.Machine

/-! ### Well-formedness (30_encoding.md R84, R92; 70_reset_and_hazards.md R222) -/

/-- `load` without its register. -/
theorem test_missing_register_refused :
    (InstrRecord.mk .load none .noCondition 3#8).registerValid = false ∧
    (InstrRecord.mk .load none .noCondition 3#8).valid = false := by decide

/-- `add` with a register. -/
theorem test_superfluous_register_refused :
    (InstrRecord.mk .add (some .r2) .noCondition 3#8).registerValid = false ∧
    (InstrRecord.mk .add (some .r2) .noCondition 3#8).valid = false := by decide

/-- `halt` with a payload that is not 0. -/
theorem test_superfluous_payload_refused :
    (InstrRecord.mk .halt none .noCondition 1#8).payloadValid = false ∧
    (InstrRecord.mk .halt none .noCondition 1#8).valid = false := by decide

theorem test_valid_record_accepted : (InstrRecord.mk .load (some .r4) .aluOverflow 3#8).valid = true := by decide

theorem test_program_of_257_refused :
    Program.wellFormed (List.replicate 257 (.noOp .noCondition)) = false ∧
    Program.wellFormed (List.replicate 256 (.noOp .noCondition)) = true := by
  rw [Program.wellFormed, Program.wellFormed, List.length_replicate, List.length_replicate]
  decide

theorem test_load_of_257_refused :
    hostLoad (List.replicate 257 (.noOp .noCondition)) State.reset = .refused .programTooLong := by
  rw [hostLoad, Program.wellFormed, List.length_replicate]
  rfl

/-! ### Decoding and encoding: V-E1 to V-E15, V-D1 to V-D6 -/

/-- V-E1 (opcode 0000). -/
theorem test_decode_noOp : decode 0b00000000#8 0x00#8 = .ok (.noOp .noCondition) := rfl

/-- V-E2 (opcode 0001, register field 01). -/
theorem test_decode_store : decode 0b00010100#8 0x40#8 = .ok (.store .r2 .noCondition 0x40#8) := rfl

/-- V-E3 (opcode 0010, register field 11). -/
theorem test_decode_load : decode 0b00101100#8 0xFF#8 = .ok (.load .r4 .noCondition 0xFF#8) := rfl

/-- V-E4 (opcode 0011, register field 10). -/
theorem test_decode_loadImmediate : decode 0b00111000#8 0xC8#8 = .ok (.loadImmediate .r3 .noCondition 200#8) := rfl

/-- V-E5 and V-E6 (opcode 0100, condition bit). -/
theorem test_decode_add :
    decode 0b01000000#8 0x10#8 = .ok (.add .noCondition 0x10#8) ∧
    decode 0b01000010#8 0x10#8 = .ok (.add .aluOverflow 0x10#8) := ⟨rfl, rfl⟩

/-- V-E7 (opcode 0101). -/
theorem test_decode_addImmediate : decode 0b01010000#8 0x02#8 = .ok (.addImmediate .noCondition 2#8) := rfl

/-- V-E8 (opcode 0110). -/
theorem test_decode_sub : decode 0b01100000#8 0x05#8 = .ok (.sub .noCondition 5#8) := rfl

/-- V-E9 (opcode 0111). -/
theorem test_decode_subImmediate : decode 0b01110000#8 0x01#8 = .ok (.subImmediate .noCondition 1#8) := rfl

/-- V-E10 (opcode 1000). -/
theorem test_decode_jump : decode 0b10000000#8 0x20#8 = .ok (.jump .noCondition 0x20#8) := rfl

/-- V-E11 (opcode 1001). -/
theorem test_decode_jumpImmediate : decode 0b10010010#8 0x07#8 = .ok (.jumpImmediate .aluOverflow 7#8) := rfl

/-- V-E12 and V-E13 (opcode 1010). -/
theorem test_decode_out :
    decode 0b10100000#8 0x00#8 = .ok (.out .r1 .noCondition) ∧
    decode 0b10101100#8 0x00#8 = .ok (.out .r4 .noCondition) := ⟨rfl, rfl⟩

/-- V-E14 and V-E15 (opcode 1111). -/
theorem test_decode_halt :
    decode 0b11110000#8 0x00#8 = .ok (.halt .noCondition) ∧
    decode 0b11110010#8 0x00#8 = .ok (.halt .aluOverflow) := ⟨rfl, rfl⟩

/-- V-D1 and V-D2. -/
theorem test_decode_reserved :
    decode 0xB0#8 0x00#8 = .error .invalidMachineCode ∧ decode 0xE7#8 0x5A#8 = .error .invalidMachineCode := ⟨rfl, rfl⟩

/-- V-D3 to V-D6: ignored bits. -/
theorem test_decode_ignores_bits :
    decode 0x31#8 0x09#8 = .ok (.loadImmediate .r1 .noCondition 9#8) ∧
    decode 0x4C#8 0x10#8 = .ok (.add .noCondition 0x10#8) ∧
    decode 0xA3#8 0x00#8 = .ok (.out .r1 .aluOverflow) ∧
    decode 0xF0#8 0x5A#8 = .ok (.halt .noCondition) := ⟨rfl, rfl, rfl, rfl⟩

/-- The words of V-E2, V-E3, V-E6 and V-E15, from their instructions. -/
theorem test_encode_words :
    encode (.store .r2 .noCondition 0x40#8) = (0x14#8, 0x40#8) ∧
    encode (.load .r4 .noCondition 0xFF#8) = (0x2C#8, 0xFF#8) ∧
    encode (.add .aluOverflow 0x10#8) = (0x42#8, 0x10#8) ∧
    encode (.halt .aluOverflow) = (0xF2#8, 0x00#8) := by decide

/-- Words of opcode_table.json, upper byte in bits 15:8. -/
theorem test_decodeTableWord :
    decodeTableWord 16 0x1440 = some (.store .r2 .noCondition 0x40#8) ∧
    decodeTableWord 16 0x9207 = some (.jumpImmediate .aluOverflow 7#8) ∧
    decodeTableWord 16 0xB000 = none := by decide

/-- The texts of V-E6 and V-E13, with the payload in decimal, and of 41_transfer.md R131 with `.ovf`. -/
theorem test_text :
    (Instr.add .aluOverflow 0x10#8).text = "add.ovf [16]" ∧ (Instr.out .r4 .noCondition).text = "out r4" ∧
    (Instr.store .r3 .aluOverflow 0x40#8).text = "store.ovf r3, [64]" := by decide

/-! ### One step -/

/-- The state after an outcome, if there is one. -/
def after : Host.Outcome State Fault Refusal → Option State
  | .next t => some t
  | .fault _ => none
  | .refused _ => none

/-- A value of the state after a step. -/
def stepGives {α : Type} (s : State) (value : State → α) : Option α := (after (step s)).map value

/-- The state after reset with `pc` at `k` and one word placed there. -/
def at_ (k : Byte) (word : Nat) : State := { State.reset with pc := k }.withFetchWord 16 word

/-- The same with one RAM byte. -/
def withRam (s : State) (a v : Byte) : State := { s with ram := s.ram.write a.toNat v }

/-- V-T1, at index 255: only the fetch happens, and the program counter wraps (10_state.md R25). -/
theorem test_noOp :
    stepGives { at_ 255#8 0x0000 with r1 := 9#8, overflow := true } (fun t => (t.r1, t.overflow, t.pc, t.romAddr)) =
      some (9#8, true, 0#8, 255#8) := by decide

/-- V-T3. -/
theorem test_store :
    stepGives { at_ 0#8 0x1440 with r2 := 17#8 } (fun t => (t.memRead 0x40#8, t.ramAddr, t.io.cells, t.ioAddr)) =
      some (17#8, 0x40#8, [], 0#7) := by decide

/-- V-T6. -/
theorem test_store_taken :
    stepGives { at_ 0#8 0x1203 with r1 := 6#8, overflow := true } (fun t => t.memRead 3#8) = some 6#8 := by decide

/-- A value of the state that `MemWrite` of 0x5A leaves. -/
def writeGives (p : Config.Params) (a : Byte) : Byte × List Host.Cell × BitVec 7 :=
  let t := State.reset.memWriteWith p a 0x5A#8
  (t.memRead a, t.io.cells, t.ioAddr)

/-- V-M1 to V-M3. -/
theorem test_write_mirrors :
    writeGives params 0x80#8 = (0x5A#8, [(0, 0x5A#8)], 0#7) ∧
    writeGives params 0xFF#8 = (0x5A#8, [(127, 0x5A#8)], 127#7) ∧
    writeGives params 0x7F#8 = (0x5A#8, [], 0#7) := by decide

/-- V-M4 to V-M6. -/
theorem test_write_other_windows :
    writeGives ⟨0, true, .inert⟩ 0x7F#8 = (0x5A#8, [(127, 0x5A#8)], 127#7) ∧
    writeGives ⟨0, true, .inert⟩ 0x80#8 = (0x5A#8, [], 0#7) ∧
    writeGives ⟨128, false, .inert⟩ 0x80#8 = (0x5A#8, [], 0#7) := by decide

/-- V-T4. -/
theorem test_load :
    stepGives (withRam (at_ 0#8 0x2CFF) 0xFF#8 9#8) (fun t => (t.r4, t.ramAddr)) = some (9#8, 0xFF#8) := by decide

/-- V-T5: not taken, but step 2 is not gated. -/
theorem test_load_not_taken :
    stepGives { withRam (at_ 0#8 0x2203) 3#8 6#8 with r1 := 1#8 } (fun t => (t.r1, t.ramAddr)) = some (1#8, 3#8) := by
  decide

/-- V-T2. -/
theorem test_loadImmediate :
    stepGives (at_ 0#8 0x38C8) (fun t => (t.r3, t.overflow, t.zero)) = some (200#8, false, false) := by decide

/-- V-A15. -/
theorem test_add :
    stepGives { withRam (at_ 0#8 0x4007) 7#8 4#8 with r1 := 3#8 } (fun t => (t.r1, t.r2, t.overflow, t.zero)) =
      some (7#8, 4#8, false, false) := by decide

/-- V-A19: not taken. -/
theorem test_add_not_taken :
    stepGives { withRam (at_ 0#8 0x4207) 7#8 4#8 with r1 := 3#8, r2 := 9#8 } (fun t => (t.r1, t.r2, t.overflow)) =
      some (3#8, 9#8, false) := by decide

/-- V-A16. -/
theorem test_addImmediate :
    stepGives { at_ 0#8 0x5001 with r1 := 255#8, r2 := 9#8 } (fun t => (t.r1, t.r2, t.overflow, t.zero)) =
      some (0#8, 1#8, true, true) := by decide

/-- V-A17. -/
theorem test_sub :
    stepGives { withRam (at_ 0#8 0x6080) 0x80#8 3#8 with r1 := 10#8 } (fun t => (t.r1, t.r2, t.overflow, t.zero)) =
      some (7#8, 3#8, false, false) := by decide

/-- V-A18. -/
theorem test_subImmediate :
    stepGives { at_ 0#8 0x7008 with r1 := 7#8 } (fun t => (t.r1, t.r2, t.overflow, t.zero)) =
      some (255#8, 8#8, true, false) := by decide

/-- V-A20: the gate is read before the flag is rewritten. -/
theorem test_subImmediate_taken :
    stepGives { at_ 0#8 0x7201 with r1 := 5#8, overflow := true } (fun t => (t.r1, t.r2, t.overflow, t.zero)) =
      some (4#8, 1#8, false, false) := by decide

/-- V-C2. -/
theorem test_jump :
    stepGives (withRam (at_ 2#8 0x8010) 0x10#8 5#8) (fun t => (t.pc, t.ramAddr)) = some (5#8, 0x10#8) := by decide

/-- V-C1 and V-C3. -/
theorem test_jumpImmediate :
    stepGives (at_ 2#8 0x9006) (fun t => t.pc) = some 6#8 ∧
    stepGives { at_ 2#8 0x9205 with overflow := true } (fun t => t.pc) = some 5#8 := by decide

/-- V-C4 and V-C5: not taken. -/
theorem test_jumpImmediate_not_taken :
    stepGives (at_ 2#8 0x9205) (fun t => t.pc) = some 3#8 ∧
    stepGives (at_ 255#8 0x9200) (fun t => t.pc) = some 0#8 := by decide

/-- V-C6. -/
theorem test_out : stepGives { at_ 0#8 0xAC00 with r4 := 5#8 } (fun t => t.dec) = some 5#8 := by decide

/-- V-C7: not taken. -/
theorem test_out_not_taken : stepGives { at_ 0#8 0xA200 with r1 := 9#8 } (fun t => t.dec) = some 0#8 := by decide

/-- V-C8. -/
theorem test_halt :
    stepGives (at_ 4#8 0xF000) (fun t => (t.finished, t.pc, t.stepCounter, t.assertedLines)) =
      some (true, 5#8, .s4, [.halt]) := by decide

/-- V-C9: not taken. -/
theorem test_halt_not_taken :
    stepGives (at_ 4#8 0xF200) (fun t => (t.finished, t.pc, t.stepCounter)) = some (false, 5#8, .s0) := by decide

/-- 95_test_vectors.md section 2.6, its first instruction under both policies. -/
theorem test_invalid_opcode :
    stepGives (at_ 0#8 0xB000) (fun t => (t.finished, t.pc, t.ir, t.stepCounter)) = some (false, 1#8, 0xB0#8, .s0) ∧
    stepWith ⟨128, true, .fault⟩ (at_ 0#8 0xB000) = .fault (.invalidOpcode 0#8) := ⟨by decide, rfl⟩

/-! ### One tick -/

/-- The lines of a tick, and a value of the state after it. -/
def tickGives {α : Type} (s : State) (value : State → α) : Option (List Line × α) :=
  (after (clockTick s)).map fun t => (t.assertedLines, value t)

/-- V-Q2, ticks 1 and 2. -/
theorem test_tick_fetch :
    tickGives (at_ 0#8 0x3005) (fun t => (t.romAddr, t.stepCounter)) = some ([.romAddressIn, .pcOut], 0#8, .s1) ∧
    tickGives { at_ 0#8 0x3005 with stepCounter := .s1 } (fun t => (t.ir, t.pc)) =
      some ([.romValueOut, .pcIncrement, .instructionRegisterIn], 0x30#8, 1#8) := by decide

/-- V-Q2, tick 4, and tick 10. -/
theorem test_tick_execute :
    tickGives { at_ 0#8 0x3005 with ir := 0x30#8, stepCounter := .s3 } (fun t => t.r1) =
      some ([.reg1In, .romValueOut, .romBankBit9], 5#8) ∧
    tickGives { at_ 0#8 0xF000 with ir := 0xF0#8, stepCounter := .s3 } (fun t => (t.finished, t.stepCounter)) =
      some ([.halt], true, .s4) := by decide

/-- V-Q4, ticks 21, 22 and 23. -/
theorem test_tick_alu :
    tickGives { at_ 0#8 0x4007 with ir := 0x40#8, stepCounter := .s2 } (fun t => t.ramAddr) =
      some ([.romValueOut, .romBankBit9, .ramAddressIn], 7#8) ∧
    tickGives { withRam (at_ 0#8 0x4007) 7#8 4#8 with ir := 0x40#8, ramAddr := 7#8, stepCounter := .s3 }
      (fun t => t.r2) = some ([.reg2In, .ramValueOut], 4#8) ∧
    tickGives { at_ 0#8 0x4007 with ir := 0x40#8, r1 := 3#8, r2 := 4#8, stepCounter := .s4 }
      (fun t => (t.r1, t.overflow, t.zero)) = some ([.reg1In, .aluOut, .aluSetFlags], 7#8, false, false) := by decide

/-- V-Q5, tick 16, with the gate closed and with it open. -/
theorem test_tick_gate :
    tickGives { at_ 0#8 0x9205 with ir := 0x92#8, pc := 3#8, stepCounter := .s3 } (fun t => t.pc) = some ([], 3#8) ∧
    tickGives { at_ 0#8 0x9205 with ir := 0x92#8, pc := 3#8, stepCounter := .s3, overflow := true } (fun t => t.pc) =
      some ([.romValueOut, .romBankBit9, .pcIn], 5#8) := by decide

/-- The masks of 10_state.md R38: pin 1 is the top bit, pin 24 the lowest. -/
theorem test_control_word :
    Lines.controlWord { reg1In := true, halt := true } = 0x800002#24 ∧ Lines.controlWord Lines.off = 0#24 := by decide

/-! ### The ALU: V-A2, V-A6, V-A8, V-A12, V-A13 -/

theorem test_alu_vectors :
    [(255#8, 1#8, false), (255#8, 255#8, false), (3#8, 5#8, true), (255#8, 0#8, true), (0#8, 255#8, true)].map
      (fun v => (aluValue v.1 v.2.1 v.2.2, aluOverflow v.1 v.2.1 v.2.2, aluZero v.1 v.2.1 v.2.2)) =
    [(0#8, true, true), (254#8, true, false), (254#8, true, false), (255#8, false, false), (1#8, true, false)] := by
  decide

/-! ### The ROM image (20_memory.md R63): program P4 of 95_test_vectors.md -/

theorem test_rom_image :
    (romImage [.loadImmediate .r1 .noCondition 7#8, .out .r1 .noCondition]).cells =
      [(0, 0x30#8), (1, 0xA0#8), (256, 7#8)] := by decide

/-! ### Witnesses: for each statement with hypotheses, values that meet all of them together -/

/-- The default parameters, but with the policy `fault`. -/
def faulting : Config.Params := ⟨128, true, .fault⟩

/-- A state whose fetch is done, with overflow false: `noCondition` applies, `aluOverflow` does not. -/
def executing : State := { State.reset with stepCounter := .s2 }

theorem witness_DecodeEncodeRoundTrip : (InstrRecord.mk .store (some .r3) .aluOverflow 255#8).valid = true := by decide

/-- With every ignored bit 0, and with one set. -/
theorem witness_EncodeDecodeExactlyWithoutIgnoredBits :
    decode 0xF0#8 0x00#8 = .ok (.halt .noCondition) ∧ ignoredBitsZero 0xF0#8 0x00#8 = true ∧
    decode 0xF0#8 0x5A#8 = .ok (.halt .noCondition) ∧ ignoredBitsZero 0xF0#8 0x5A#8 = false := ⟨rfl, rfl, rfl, rfl⟩

theorem witness_DecodeIgnoresUnusedBits :
    decode 0x40#8 0x10#8 = .ok (.add .noCondition 0x10#8) ∧ opcodeField 0x4D#8 = opcodeField 0x40#8 ∧
    condField 0x4D#8 = condField 0x40#8 ∧ (Instr.add .noCondition 0x10#8).operation.hasRegister = false ∧
    (Instr.add .noCondition 0x10#8).operation.hasPayload = true := ⟨rfl, rfl, rfl, rfl, rfl⟩

theorem witness_NoOpHasNoEffect : executing.stepCounter = .s2 := rfl

/-- At both ends of the window and just below it: 127, 128, 255. -/
theorem witness_StoreWritesRamAndMirrors :
    executing.stepCounter = .s2 ∧ executing.applies .noCondition ∧ 128 ≤ (128#8 : Byte).toNat ∧
    128 ≤ (255#8 : Byte).toNat ∧ (127#8 : Byte).toNat < 128 ∧ ¬ executing.applies .aluOverflow ∧
    (127#7 : BitVec 7).toNat + 128 ≠ (128#8 : Byte).toNat := by decide

theorem witness_LoadReadsRam :
    executing.stepCounter = .s2 ∧ executing.applies .noCondition ∧ ¬ executing.applies .aluOverflow ∧ Reg.r1 ≠ Reg.r2 :=
  by decide

theorem witness_LoadImmediateWritesPayload :
    executing.stepCounter = .s2 ∧ executing.applies .noCondition ∧ ¬ executing.applies .aluOverflow ∧ Reg.r4 ≠ Reg.r3 :=
  by decide

theorem witness_AddAccumulatesRamByte :
    executing.stepCounter = .s2 ∧ executing.applies .noCondition ∧ ¬ executing.applies .aluOverflow := by decide

theorem witness_AddImmediateAccumulatesPayload :
    executing.stepCounter = .s2 ∧ executing.applies .noCondition ∧ ¬ executing.applies .aluOverflow := by decide

theorem witness_SubSubtractsRamByte :
    executing.stepCounter = .s2 ∧ executing.applies .noCondition ∧ ¬ executing.applies .aluOverflow := by decide

theorem witness_SubImmediateSubtractsPayload :
    executing.stepCounter = .s2 ∧ executing.applies .noCondition ∧ ¬ executing.applies .aluOverflow := by decide

theorem witness_JumpTakesTargetFromRam :
    executing.stepCounter = .s2 ∧ executing.applies .noCondition ∧ ¬ executing.applies .aluOverflow := by decide

theorem witness_JumpImmediateTakesPayload :
    executing.stepCounter = .s2 ∧ executing.applies .noCondition ∧ ¬ executing.applies .aluOverflow := by decide

theorem witness_OutCopiesRegister :
    executing.stepCounter = .s2 ∧ executing.applies .noCondition ∧ ¬ executing.applies .aluOverflow := by decide

/-- Also with `aluOverflow` and the flag set. -/
theorem witness_HaltStopsTheMachine :
    executing.stepCounter = .s2 ∧ executing.applies .noCondition ∧ ¬ executing.applies .aluOverflow ∧
    { executing with overflow := true }.applies .aluOverflow := by decide

theorem witness_StepRunsTheDecodedInstruction :
    (at_ 255#8 0x4207).nextIs (.add .aluOverflow 7#8) := ⟨rfl, rfl, rfl⟩

/-- Opcodes 11 and 14, and both policies. -/
theorem witness_InvalidOpcodeFollowsThePolicy :
    (at_ 3#8 0xB000).finished = false ∧ (at_ 3#8 0xB000).stepCounter = .s0 ∧
    ((at_ 3#8 0xB000).romRead (romAddress false 3#8)).toNat / 16 = 11 ∧
    ((at_ 3#8 0xE700).romRead (romAddress false 3#8)).toNat / 16 = 14 ∧
    faulting.invalidOpcode = .fault ∧ params.invalidOpcode = .inert := by decide

/-- A finished state, a tick, and a load. -/
theorem witness_FinishedIsSetOnlyByHalt :
    { executing with finished := true }.finished = true ∧
    (∃ t, executing.finished = false ∧ clockTickWith params executing = .next t) ∧
    ∃ t, hostLoad [.halt .noCondition] executing = .next t := ⟨rfl, ⟨_, rfl, rfl⟩, ⟨_, rfl⟩⟩

theorem witness_StepCounterCyclesThroughSix :
    (∃ t, executing.finished = false ∧ clockTickWith params executing = .next t) ∧
    ∃ t, hostLoad [.halt .noCondition] executing = .next t := ⟨⟨_, rfl, rfl⟩, ⟨_, rfl⟩⟩

/-- A tick that asserts `aluSetFlags`, one that does not, and one of a finished state. -/
theorem witness_FlagsLatchOnlyOnAluSetFlags :
    (∃ t, clockTickWith params { executing with ir := 0x50#8, stepCounter := .s4 } = .next t ∧
      t.lines.aluSetFlags = true) ∧
    (∃ t, clockTickWith params executing = .next t ∧ t.lines.aluSetFlags = false) ∧
    ∃ t, clockTickWith params { executing with finished := true } = .next t :=
  ⟨⟨_, rfl, rfl⟩, ⟨_, rfl, rfl⟩, ⟨_, rfl⟩⟩

theorem witness_TickZeroLatchesRomAddress :
    (at_ 255#8 0x4207).finished = false ∧ (at_ 255#8 0x4207).stepCounter = .s0 := ⟨rfl, rfl⟩

theorem witness_TickOneFetchesUpperByte :
    { at_ 255#8 0x4207 with stepCounter := .s1 }.finished = false ∧
    { at_ 255#8 0x4207 with stepCounter := .s1 }.stepCounter = .s1 := ⟨rfl, rfl⟩

/-- A RAM-addressed operation, and one that is not. -/
theorem witness_TickTwoLatchesRamAddress :
    executing.finished = false ∧ executing.stepCounter = .s2 ∧
    decode { executing with ir := 0x42#8 }.ir { executing with ir := 0x42#8 }.payload =
      .ok (.add .aluOverflow 0#8) ∧
    (Instr.add .aluOverflow 0#8).operation ∈ [Operation.store, .load, .add, .sub, .jump] ∧
    decode executing.ir executing.payload = .ok (.noOp .noCondition) ∧
    (Instr.noOp .noCondition).operation ∉ [Operation.store, .load, .add, .sub, .jump] :=
  ⟨rfl, rfl, rfl, by decide, rfl, by decide⟩

/-- At step 3, and at step 4. -/
theorem witness_GatedStepsAreNoOps :
    executing.finished = false ∧ { executing with stepCounter := .s3 }.stepCounter = .s3 ∧
    { executing with stepCounter := .s4 }.stepCounter = .s4 ∧
    decode { executing with ir := 0x42#8 }.ir { executing with ir := 0x42#8 }.payload =
      .ok (.add .aluOverflow 0#8) ∧
    (Instr.add .aluOverflow 0#8).condition = .aluOverflow ∧ executing.overflow = false := ⟨rfl, rfl, rfl, rfl, rfl, rfl⟩

theorem witness_OverflowChangesOnlyAtStepFour :
    ∃ t, executing.stepCounter ≠ .s4 ∧ clockTickWith params executing = .next t := ⟨_, by decide, rfl⟩

/-- An instruction that goes on, and a halt. -/
theorem witness_InstructionTakesSixTicks :
    (∃ t, (at_ 0#8 0x3005).finished = false ∧ (at_ 0#8 0x3005).stepCounter = .s0 ∧
      runTicksWith params 6 (at_ 0#8 0x3005) = .next t ∧ t.finished = false) ∧
    ∃ t, (at_ 0#8 0xF000).finished = false ∧ (at_ 0#8 0xF000).stepCounter = .s0 ∧
      runTicksWith params 6 (at_ 0#8 0xF000) = .next t ∧ t.finished = true :=
  ⟨⟨_, rfl, rfl, rfl, rfl⟩, ⟨_, rfl, rfl, rfl, rfl⟩⟩

/-- A store into the window, from a state with memories in canonical form. -/
theorem witness_MemoriesStayWellFormed :
    (at_ 0#8 0x1080).memoriesWf ∧ (∃ t, stepWith params (at_ 0#8 0x1080) = .next t) ∧
    ∃ t, clockTickWith params (at_ 0#8 0x1080) = .next t := ⟨by decide, ⟨_, rfl⟩, ⟨_, rfl⟩⟩

theorem witness_IoArrayMirrorsRamWindow :
    params.mmioActive = true ∧ (at_ 0#8 0x1080).ioMirrors params ∧
    (∃ t, stepWith params { at_ 0#8 0x1080 with r1 := 1#8 } = .next t) ∧
    ∃ t, clockTickWith params { at_ 0#8 0x1080 with r1 := 1#8 } = .next t :=
  ⟨rfl, fun _ _ => rfl, ⟨_, rfl⟩, ⟨_, rfl⟩⟩

/-- An unfinished state, and a frozen one. -/
theorem witness_StepsEndAtBoundariesOrFrozen :
    (∃ t, executing.frozenAfterHalt ∧ stepWith params executing = .next t) ∧
    { executing with finished := true, stepCounter := .s4, lines := Lines.halting }.frozenAfterHalt :=
  ⟨⟨_, by decide, rfl⟩, by decide⟩

theorem witness_RomNeverChanges :
    (∃ t, stepWith params (at_ 0#8 0x1080) = .next t) ∧ ∃ t, clockTickWith params (at_ 0#8 0x1080) = .next t :=
  ⟨⟨_, rfl⟩, ⟨_, rfl⟩⟩

theorem witness_OnlyStoreWritesRam :
    ∃ t, { at_ 0#8 0x1440 with r2 := 17#8 }.nextIs (.store .r2 .noCondition 0x40#8) ∧
      step { at_ 0#8 0x1440 with r2 := 17#8 } = .next t ∧
      t.memRead 0x40#8 ≠ { at_ 0#8 0x1440 with r2 := 17#8 }.memRead 0x40#8 :=
  ⟨_, ⟨rfl, rfl, rfl⟩, rfl, by decide⟩

theorem witness_OnlyAluOperationsWriteFlags :
    ∃ t, { at_ 0#8 0x5001 with r1 := 255#8 }.nextIs (.addImmediate .noCondition 1#8) ∧
      step { at_ 0#8 0x5001 with r1 := 255#8 } = .next t ∧ ¬ sameFlags { at_ 0#8 0x5001 with r1 := 255#8 } t :=
  ⟨_, ⟨rfl, rfl, rfl⟩, rfl, by decide⟩

/-- At the last index, where the program counter wraps, and a taken jump. -/
theorem witness_SequentialUnlessJumpTaken :
    (∃ t, (at_ 255#8 0xAC00).nextIs (.out .r4 .noCondition) ∧ step (at_ 255#8 0xAC00) = .next t ∧ t.pc = 0#8) ∧
    ∃ t, (at_ 2#8 0x9006).nextIs (.jumpImmediate .noCondition 6#8) ∧ step (at_ 2#8 0x9006) = .next t ∧ t.pc = 6#8 :=
  ⟨⟨_, ⟨rfl, rfl, rfl⟩, rfl, rfl⟩, ⟨_, ⟨rfl, rfl, rfl⟩, rfl, rfl⟩⟩

theorem witness_ZeroFlagIsNeverRead :
    (∃ t, clockTickWith params { executing with ir := 0x50#8, stepCounter := .s4 } = .next t ∧
      t.lines.aluSetFlags = true) ∧
    (∃ t, stepWith params (at_ 2#8 0x9206) = .next t) ∧ ∃ t, hostLoad [.halt .noCondition] executing = .next t :=
  ⟨⟨_, rfl, rfl⟩, ⟨_, rfl⟩, ⟨_, rfl⟩⟩

theorem witness_OutputDevicesAreNeverRead : ∃ t, stepWith params (at_ 0#8 0x2080) = .next t := ⟨_, rfl⟩

/-- In the window at both its ends, outside it, and with the flag off. -/
theorem witness_MemWriteMirrorsExactlyTheWindow :
    (params.mmioActive = true ∧ params.ioBase.val ≤ (128#8 : Byte).toNat ∧
      (128#8 : Byte).toNat < params.ioBase.val + 128 ∧ (255#8 : Byte).toNat < params.ioBase.val + 128) ∧
    ¬ (params.ioBase.val ≤ (127#8 : Byte).toNat) ∧
    ¬ ((128#8 : Byte).toNat < (Config.Params.mk 0 true .inert).ioBase.val + 128) := by decide

/-- The longest program that is accepted, and the shortest that is not. -/
theorem witness_LoadBuildsTheFreshState :
    (List.replicate 256 (Instr.halt .noCondition)).length ≤ 256 ∧
    256 < (List.replicate 257 (Instr.halt .noCondition)).length := by
  rw [List.length_replicate, List.length_replicate]
  decide

/-- An index of the program, and one past its end. -/
theorem witness_LoadedProgramIsFetched :
    [Instr.halt .noCondition].length ≤ 256 ∧
    { State.reset with rom := romImage [.halt .noCondition] }.rom = romImage [.halt .noCondition] ∧
    State.reset.stepCounter = .s0 ∧ [Instr.halt .noCondition][State.reset.pc.toNat]? = some (.halt .noCondition) ∧
    [Instr.halt .noCondition][(1#8 : Byte).toNat]? = none := by decide

theorem witness_PlacedWordIsFetched : decodeTableWord 16 0x1440 = some (.store .r2 .noCondition 0x40#8) := by decide

end Sys2Proof.Tests
end

section
/-! SUPPORT. Non-interference, said once: two states that agree on everything an instruction reads stay related through an
execute phase and through a step, when each write keeps the relation. It is `KeptByExecute` for a pair of states. -/

namespace Sys2Proof.Machine

/-- The two states agree on every component that decides what a step does or whose value a step writes elsewhere. -/
structure AgreeOnReads (s u : State) : Prop where
  finished : u.finished = s.finished
  stepCounter : u.stepCounter = s.stepCounter
  overflow : u.overflow = s.overflow
  ir : u.ir = s.ir
  reg : ∀ q, u.reg q = s.reg q
  ram : u.ram = s.ram
  ramAddr : u.ramAddr = s.ramAddr
  rom : u.rom = s.rom
  romAddr : u.romAddr = s.romAddr

namespace AgreeOnReads

variable {s u : State} (a : AgreeOnReads s u)
include a

theorem due (k : MicroStep) : u.due k = s.due k := by
  simp only [State.due, a.stepCounter]

theorem ramOperand : u.ramOperand = s.ramOperand := by
  simp only [State.ramOperand, State.memRead, a.ram, a.ramAddr]

theorem current : u.current = s.current := by
  simp only [State.current, State.payload, State.romRead, a.ir, a.rom, a.romAddr]

theorem invalidOpcodeFault (p : Config.Params) : invalidOpcodeFault p u = invalidOpcodeFault p s := by
  simp only [Machine.invalidOpcodeFault, a.stepCounter, a.romAddr]

end AgreeOnReads

/-- A relation of two states within `AgreeOnReads` that every write of an execute phase keeps, and the passing of ticks,
when both states make it with the same values. -/
structure RelatedByExecute (p : Config.Params) (R : State → State → Prop) : Prop where
  agree : ∀ {s u}, R s u → AgreeOnReads s u
  ramAddr : ∀ {s u} a, R s u → R { s with ramAddr := a } { u with ramAddr := a }
  reg : ∀ {s u} r v, R s u → R (s.setReg r v) (u.setReg r v)
  memWrite : ∀ {s u} a v, R s u → R (s.memWriteWith p a v) (u.memWriteWith p a v)
  alu : ∀ {s u} neg, R s u → R (s.latchAlu neg) (u.latchAlu neg)
  pc : ∀ {s u} v, R s u → R { s with pc := v } { u with pc := v }
  dec : ∀ {s u} v, R s u → R { s with dec := v } { u with dec := v }
  complete : ∀ {s u}, R s u → R s.complete u.complete
  stop : ∀ {s u}, R s u → R s.stop u.stop

/-- A relation that the fetch keeps too. -/
structure RelatedByFetch (R : State → State → Prop) : Prop where
  fetchAddress : ∀ {s u}, R s u → R s.fetchAddress u.fetchAddress
  fetchUpper : ∀ {s u}, R s u → R s.fetchUpper u.fetchUpper

namespace RelatedByExecute

variable {p : Config.Params} {R : State → State → Prop} (k : RelatedByExecute p R) {s u : State}
include k

theorem latchRamAddr (a : Byte) (h : R s u) : R (s.latchRamAddr a) (u.latchRamAddr a) := by
  unfold State.latchRamAddr
  rw [(k.agree h).due]
  split
  · exact k.ramAddr a h
  · exact h

theorem onStep {st : MicroStep} {c : Cond} {w : State → State} (hw : ∀ {t v}, R t v → R (w t) (w v)) (h : R s u) :
    R (s.onStep st c w) (u.onStep st c w) := by
  unfold State.onStep
  rw [(k.agree h).due, (k.agree h).overflow]
  split
  · exact hw h
  · exact h

theorem store (r : Reg) (h : R s u) :
    R (s.memWriteWith p s.ramAddr (s.reg r)) (u.memWriteWith p u.ramAddr (u.reg r)) := by
  rw [(k.agree h).ramAddr, (k.agree h).reg]
  exact k.memWrite _ _ h

theorem load (r : Reg) (h : R s u) : R (s.setReg r s.ramOperand) (u.setReg r u.ramOperand) := by
  rw [(k.agree h).ramOperand]
  exact k.reg r _ h

theorem jump (h : R s u) : R { s with pc := s.ramOperand } { u with pc := u.ramOperand } := by
  rw [(k.agree h).ramOperand]
  exact k.pc _ h

theorem out (r : Reg) (h : R s u) : R { s with dec := s.reg r } { u with dec := u.reg r } := by
  rw [(k.agree h).reg]
  exact k.dec _ h

theorem aluPhase (c : Cond) (neg : Bool) {b : State → Byte}
    (hb : ∀ {t v}, R t v → R (t.setReg .r2 (b t)) (v.setReg .r2 (b v))) (h : R s u) :
    R (s.aluPhase c neg b) (u.aluPhase c neg b) :=
  k.complete (k.onStep (k.alu neg) (k.onStep hb h))

/-- Every instruction answers a next state in both, and these are related again. -/
theorem execWith (i : Instr) (h : R s u) :
    ∃ t v, execWith p i s = .next t ∧ execWith p i u = .next v ∧ R t v := by
  cases i with
  | noOp c => exact ⟨_, _, rfl, rfl, k.complete h⟩
  | store r c a => exact ⟨_, _, rfl, rfl, k.complete (k.onStep (k.store r) (k.latchRamAddr a h))⟩
  | load r c a => exact ⟨_, _, rfl, rfl, k.complete (k.onStep (k.load r) (k.latchRamAddr a h))⟩
  | loadImmediate r c v => exact ⟨_, _, rfl, rfl, k.complete (k.onStep (k.reg r v) h)⟩
  | add c a => exact ⟨_, _, rfl, rfl, k.aluPhase c false (k.load .r2) (k.latchRamAddr a h)⟩
  | addImmediate c v => exact ⟨_, _, rfl, rfl, k.aluPhase c false (k.reg .r2 v) h⟩
  | sub c a => exact ⟨_, _, rfl, rfl, k.aluPhase c true (k.load .r2) (k.latchRamAddr a h)⟩
  | subImmediate c v => exact ⟨_, _, rfl, rfl, k.aluPhase c true (k.reg .r2 v) h⟩
  | jump c a => exact ⟨_, _, rfl, rfl, k.complete (k.onStep k.jump (k.latchRamAddr a h))⟩
  | jumpImmediate c t => exact ⟨_, _, rfl, rfl, k.complete (k.onStep (k.pc t) h)⟩
  | out r c => exact ⟨_, _, rfl, rfl, k.complete (k.onStep (k.out r) h)⟩
  | halt c =>
    simp only [Machine.execWith, execHalt, (k.agree h).due, (k.agree h).overflow]
    split
    · exact ⟨_, _, rfl, rfl, k.stop h⟩
    · exact ⟨_, _, rfl, rfl, k.complete h⟩

theorem fetch (f : RelatedByFetch R) (h : R s u) : R s.fetch u.fetch := by
  unfold State.fetch
  rw [(k.agree h).stepCounter]
  split
  · exact f.fetchUpper (f.fetchAddress h)
  · exact f.fetchUpper h
  all_goals exact h

/-- Where one of two related states steps, so does the other, to a related state. -/
theorem stepWith (f : RelatedByFetch R) (h : R s u) {t : State} (e : stepWith p s = .next t) :
    ∃ v, stepWith p u = .next v ∧ R t v := by
  have hf : R s.fetch u.fetch := k.fetch f h
  unfold Machine.stepWith at e ⊢
  rw [(k.agree h).finished, (k.agree hf).current]
  split at e
  · next hfin =>
    cases e
    exact ⟨u, by rw [if_pos hfin], h⟩
  · next hfin =>
    rw [if_neg hfin]
    split at e
    · next i _ =>
      obtain ⟨t', v, ht, hv, hr⟩ := k.execWith i hf
      rw [ht] at e
      cases e
      exact ⟨v, hv, hr⟩
    · unfold invalidOpcodeWith at e ⊢
      rw [(k.agree hf).invalidOpcodeFault p]
      split at e
      · cases e
      · cases e
        exact ⟨_, rfl, k.complete hf⟩

end RelatedByExecute

end Sys2Proof.Machine
end

section
/-! PROOFS. The halted flag, the step counter and the zero flag (10_state.md R27, R28, R32). -/

namespace Sys2Proof.Machine

/-! ### What a tick and `load` do to the three components -/

@[simp] theorem applyLines_finished (p : Config.Params) (ls : Lines) (s : State) :
    (applyLines p ls s).finished = if ls.halt then true else s.finished := rfl

@[simp] theorem applyLines_stepCounter (p : Config.Params) (ls : Lines) (s : State) :
    (applyLines p ls s).stepCounter = s.stepCounter := rfl

@[simp] theorem applyLines_zero (p : Config.Params) (ls : Lines) (s : State) :
    (applyLines p ls s).zero = if ls.aluSetFlags then aluZero s.r1 s.r2 ls.aluNegate else s.zero := rfl

/-- A finished machine stays as it is (40_sequencer.md R100). -/
theorem clockTickWith_of_finished (p : Config.Params) {s : State} (hf : s.finished = true) :
    clockTickWith p s = .next s := by
  simp [clockTickWith, hf]

/-- `load`, where it is not refused, gives the reset state with the program's ROM image. -/
theorem hostLoad_next {q : Program} {s t : State} (h : hostLoad q s = .next t) :
    t = { State.reset with rom := romImage q, draws := s.draws } := by
  rcases hostLoad_cases q s with ⟨_, e⟩ | ⟨_, e⟩ <;> rw [e] at h <;> cases h
  rfl

/-! ### The step counter -/

theorem MicroStep.toNat_lt (st : MicroStep) : st.toNat < 6 := by
  cases st <;> decide

theorem MicroStep.next_toNat (st : MicroStep) : st.next.toNat = (st.toNat + 1) % 6 := by
  cases st <;> rfl

theorem MicroStep.previous_toNat (st : MicroStep) : st.previous.toNat = (st.toNat + 5) % 6 := by
  cases st <;> rfl

/-! ### The zero flag is not read -/

/-- The second state is the first but for the zero flag. -/
def EqualButZero (s u : State) : Prop := ∃ z, u = { s with zero := z }

theorem EqualButZero.agreeOnReads {s u : State} (h : EqualButZero s u) : AgreeOnReads s u := by
  obtain ⟨z, rfl⟩ := h
  exact ⟨rfl, rfl, rfl, rfl, fun q => by cases q <;> rfl, rfl, rfl, rfl, rfl⟩

theorem State.setReg_withZero (s : State) (z : Bool) (r : Reg) (v : Byte) :
    { s with zero := z }.setReg r v = { s.setReg r v with zero := z } := by
  cases r <;> rfl

theorem State.memWriteWith_withZero (p : Config.Params) (s : State) (z : Bool) (a v : Byte) :
    { s with zero := z }.memWriteWith p a v = { s.memWriteWith p a v with zero := z } := by
  unfold State.memWriteWith
  cases ioIndex p a <;> rfl

/-- Of the writes only `latchAlu` sets the flag, from r1 and r2; the others leave it as it is. -/
theorem EqualButZero.relatedByExecute (p : Config.Params) : RelatedByExecute p EqualButZero where
  agree := EqualButZero.agreeOnReads
  ramAddr := fun _ ⟨z, e⟩ => ⟨z, by rw [e]⟩
  reg := fun r v ⟨z, e⟩ => ⟨z, by rw [e, State.setReg_withZero]⟩
  memWrite := fun a v ⟨z, e⟩ => ⟨z, by rw [e, State.memWriteWith_withZero]⟩
  alu := fun {s _} neg ⟨_, e⟩ => ⟨aluZero s.r1 s.r2 neg, by rw [e]; rfl⟩
  pc := fun _ ⟨z, e⟩ => ⟨z, by rw [e]⟩
  dec := fun _ ⟨z, e⟩ => ⟨z, by rw [e]⟩
  complete := fun ⟨z, e⟩ => ⟨z, by rw [e]; rfl⟩
  stop := fun ⟨z, e⟩ => ⟨z, by rw [e]; rfl⟩

theorem EqualButZero.relatedByFetch : RelatedByFetch EqualButZero where
  fetchAddress := fun ⟨z, e⟩ => ⟨z, by rw [e]; rfl⟩
  fetchUpper := fun ⟨z, e⟩ => ⟨z, by rw [e]; rfl⟩

/-- The zero flag after a tick (10_state.md R32). -/
theorem clockTickWith_zero {p : Config.Params} {s t : State} (h : clockTickWith p s = .next t) :
    t.zero = if s.finished = false ∧ t.lines.aluSetFlags = true then aluZero s.r1 s.r2 t.lines.aluNegate else s.zero := by
  cases hf : s.finished with
  | true =>
    rw [clockTickWith_of_finished p hf] at h
    cases h
    simp
  | false =>
    obtain ⟨_, rfl⟩ := clockTickWith_next hf h
    simp

end Sys2Proof.Machine

namespace Sys2Proof.Proofs
open Sys2Proof Sys2Proof.Machine

/-- Settles O46: a tick writes the flag by one line alone, and a step keeps two states equal but for it. -/
theorem zeroFlagIsNeverRead : Obligations.ZeroFlagIsNeverRead := by
  refine ⟨fun p s t h => clockTickWith_zero h, fun p s t z h => ?_, fun q s t h => ?_⟩
  · obtain ⟨_, hv, z', rfl⟩ :=
      (EqualButZero.relatedByExecute p).stepWith EqualButZero.relatedByFetch ⟨z, rfl⟩ h
    exact ⟨z', hv⟩
  · rw [hostLoad_next h]
    rfl

/-- Settles O28, from what a tick can do (40_sequencer.md R100) and what its lines do to `finished`. -/
theorem finishedIsSetOnlyByHalt : Obligations.FinishedIsSetOnlyByHalt := by
  refine ⟨fun p s hf => clockTickWith_of_finished p hf, fun p s t hf h => ?_, fun q s t h => ?_⟩
  · obtain ⟨_, rfl⟩ := clockTickWith_next hf h
    simp [hf]
  · rw [hostLoad_next h]
    rfl

/-- Settles O29: no line writes the counter, and the end of the tick advances it. -/
theorem stepCounterCyclesThroughSix : Obligations.StepCounterCyclesThroughSix := by
  refine ⟨fun st => ⟨st.toNat_lt, st.next_toNat, st.previous_toNat⟩, fun p s t hf h => ?_, fun q s t h => ?_⟩
  · obtain ⟨_, rfl⟩ := clockTickWith_next hf h
    simp [MicroStep.next_toNat]
  · rw [hostLoad_next h]
    rfl

end Sys2Proof.Proofs
end

section
/-! PROOFS. The operation codes and the fields of the upper byte (30_encoding.md R81, R83). -/

namespace Sys2Proof

/-! ### The codes of the operations -/

/-- Every operation is the operation of its code. -/
@[simp] theorem Operation.ofCode_code (op : Operation) : Operation.ofCode op.code = some op := by
  cases op <;> rfl

/-- A code that names an operation is that operation's code. -/
theorem Operation.code_of_ofCode {n : BitVec 4} {op : Operation} (h : Operation.ofCode n = some op) : op.code = n := by
  unfold Operation.ofCode at h
  split at h <;> cases h
  all_goals
    next hn => exact BitVec.eq_of_toNat_eq hn.symm

/-- A code names exactly the operation it is the code of (30_encoding.md R83). -/
theorem Operation.ofCode_eq_some_iff (op : Operation) (n : BitVec 4) : Operation.ofCode n = some op ↔ op.code = n :=
  ⟨Operation.code_of_ofCode, fun h => h ▸ op.ofCode_code⟩

/-! ### The fields of an encoded upper byte -/

/-- The shifts of `encodeRecord` put its fields side by side, without overlap: from bit 7 down the opcode, the register
index, the condition bit and a 0 (30_encoding.md R81, R88). -/
theorem encodeRecord_upper (r : InstrRecord) :
    (encodeRecord r).1 = r.operation.code ++ regIndexField r.register ++ r.condition.bit ++ 0#1 := by
  refine BitVec.eq_of_getLsbD_eq fun i hi => ?_
  simp only [encodeRecord, BitVec.getLsbD_append, BitVec.getLsbD_or, BitVec.getLsbD_shiftLeft, BitVec.getLsbD_setWidth]
  interval_cases i <;> simp

@[simp] theorem opcodeField_encodeRecord (r : InstrRecord) : opcodeField (encodeRecord r).1 = r.operation.code := by
  rw [opcodeField, encodeRecord_upper, BitVec.extractLsb'_append_eq_of_le (by decide),
    BitVec.extractLsb'_append_eq_of_le (by decide), BitVec.extractLsb'_append_eq_left]

@[simp] theorem regField_encodeRecord (r : InstrRecord) :
    regField (encodeRecord r).1 = regIndexField r.register := by
  rw [regField, encodeRecord_upper, BitVec.extractLsb'_append_eq_of_le (by decide),
    BitVec.extractLsb'_append_eq_of_le (by decide), BitVec.extractLsb'_append_eq_right]

/-- The condition field as a slice; `condField` reads the same bit as a `Bool`. -/
theorem encodeRecord_upper_conditionBit (r : InstrRecord) :
    (encodeRecord r).1.extractLsb' 1 1 = r.condition.bit := by
  rw [encodeRecord_upper, BitVec.extractLsb'_append_eq_of_le (by decide), BitVec.extractLsb'_append_eq_right]

@[simp] theorem reservedField_encodeRecord (r : InstrRecord) : reservedField (encodeRecord r).1 = false := by
  rw [reservedField, encodeRecord_upper, BitVec.getLsbD_append]
  rfl

end Sys2Proof

namespace Sys2Proof.Proofs
open Sys2Proof

/-- Settles O4: each code names its own operation and no other, and the reserved codes name none. -/
theorem opcodesAreTheClosedSet : Obligations.OpcodesAreTheClosedSet :=
  ⟨rfl, Operation.ofCode_eq_some_iff, rfl⟩

/-- Settles O5, from the fields of the upper byte; an absent register has index 0. -/
theorem upperBytePacksTheFields : Obligations.UpperBytePacksTheFields := by
  intro r
  refine ⟨opcodeField_encodeRecord r, (regField_encodeRecord r).trans ?_, encodeRecord_upper_conditionBit r,
    reservedField_encodeRecord r⟩
  cases r.register <;> rfl

end Sys2Proof.Proofs
end

section
/-! PROOFS. The ALU's two flags and the tick that latches them (42_alu.md R151 to R153). -/

namespace Sys2Proof.Machine

/-! ### When the ALU's flags are true -/

/-- Overflow, as the range of the untruncated result (42_alu.md R151). -/
theorem aluOverflow_iff (a b : Byte) (neg : Bool) :
    aluOverflow a b neg = true ↔ ¬ (0 ≤ aluRaw a b neg ∧ aluRaw a b neg ≤ 255) := by
  rw [aluOverflow, ← Bool.decide_and, Bool.not_eq_true', decide_eq_false_iff_not]

/-- The overflow of an addition is its carry. -/
theorem aluOverflow_add_iff (a b : Byte) : aluOverflow a b false = true ↔ 255 < a.toNat + b.toNat := by
  rw [aluOverflow_add, decide_eq_true_iff]

/-- The overflow of a subtraction is its borrow. -/
theorem aluOverflow_sub_iff (a b : Byte) : aluOverflow a b true = true ↔ a.toNat < b.toNat := by
  rw [aluOverflow_sub, decide_eq_true_iff]

/-- Zero, as the value of the truncated output (42_alu.md R152). -/
theorem aluZero_iff (a b : Byte) (neg : Bool) : aluZero a b neg = true ↔ (aluValue a b neg).toNat = 0 := by
  rw [aluZero_eq, decide_eq_true_iff]

/-! ### What a tick does to the overflow flag -/

@[simp] theorem applyLines_overflow (p : Config.Params) (ls : Lines) (s : State) :
    (applyLines p ls s).overflow = if ls.aluSetFlags then aluOverflow s.r1 s.r2 ls.aluNegate else s.overflow := rfl

/-- The overflow flag after a tick, as `clockTickWith_zero` says it of the zero flag (42_alu.md R153). -/
theorem clockTickWith_overflow {p : Config.Params} {s t : State} (h : clockTickWith p s = .next t) :
    t.overflow =
      if s.finished = false ∧ t.lines.aluSetFlags = true then aluOverflow s.r1 s.r2 t.lines.aluNegate
      else s.overflow := by
  cases hf : s.finished with
  | true =>
    rw [clockTickWith_of_finished p hf] at h
    cases h
    simp
  | false =>
    obtain ⟨_, rfl⟩ := clockTickWith_next hf h
    simp

end Sys2Proof.Machine

namespace Sys2Proof.Proofs
open Sys2Proof Sys2Proof.Machine

/-- Settles O8: the definition's range, and what that range is for each operation. -/
theorem overflowIsUnsignedRange : Obligations.OverflowIsUnsignedRange :=
  fun a b => ⟨aluOverflow_iff a b, aluOverflow_add_iff a b, aluOverflow_sub_iff a b⟩

/-- Settles O9; 255 + 1 is 256, which truncates to 0 and is above 255. -/
theorem zeroFlagIsTruncatedZero : Obligations.ZeroFlagIsTruncatedZero := by
  refine ⟨aluZero_iff, ?_, ?_⟩
  · rw [aluZero_iff, aluValue_add_toNat]
    rfl
  · rw [aluOverflow_add_iff]
    decide

/-- Settles O30: each flag is the tick's choice between the ALU's value and the old one, on the same test. -/
theorem flagsLatchOnlyOnAluSetFlags : Obligations.FlagsLatchOnlyOnAluSetFlags := by
  intro p s t h
  refine ⟨fun hset => ?_, fun hkeep => ?_⟩
  · exact ⟨(clockTickWith_overflow h).trans (if_pos hset), (clockTickWith_zero h).trans (if_pos hset)⟩
  · have hnot : ¬ (s.finished = false ∧ t.lines.aluSetFlags = true) := by
      rintro ⟨hfin, hset⟩
      simp [hfin, hset] at hkeep
    exact ⟨(clockTickWith_overflow h).trans (if_neg hnot), (clockTickWith_zero h).trans (if_neg hnot)⟩

end Sys2Proof.Proofs
end

section
/-! PROOFS. The codec's only error and the reserved opcodes (30_encoding.md R83, R89; 60_exceptions.md R201). -/

namespace Sys2Proof

/-- The opcode is the byte's upper half, as a number. -/
theorem opcodeField_toNat (u : Byte) : (opcodeField u).toNat = u.toNat / 16 := by
  have hu : u.toNat < 256 := u.isLt
  rw [opcodeField, BitVec.extractLsb'_toNat, Nat.shiftRight_eq_div_pow]
  omega

/-- The codes without an operation are the reserved ones (30_encoding.md R83). -/
theorem Operation.ofCode_eq_none_iff (n : BitVec 4) : Operation.ofCode n = none ↔ 11 ≤ n.toNat ∧ n.toNat ≤ 14 := by
  have hn : n.toNat < 16 := n.isLt
  unfold Operation.ofCode
  split
  case h_13 =>
    -- no listed code: each `≠` that `split` gives is written as an implication, which `omega` does not read
    simp only [imp_false] at *
    simp only [true_iff]
    omega
  all_goals
    simp only [reduceCtorEq, false_iff]
    omega

/-- `decode` fails exactly where the opcode has no operation: neither the other fields nor the lower byte matter. -/
theorem decode_eq_error_iff (u l : Byte) :
    decode u l = .error .invalidMachineCode ↔ Operation.ofCode (opcodeField u) = none := by
  unfold decode
  cases Operation.ofCode (opcodeField u) <;> simp

end Sys2Proof

namespace Sys2Proof.Proofs
open Sys2Proof

/-- Settles O3: `decode` fails for want of an operation, and the codes that have none are 11 to 14. -/
theorem decodeFailsExactlyOnReservedOpcodes : Obligations.DecodeFailsExactlyOnReservedOpcodes := by
  refine ⟨fun e => ?_, fun u l => ?_⟩
  · cases e
    rfl
  · rw [decode_eq_error_iff, Operation.ofCode_eq_none_iff, opcodeField_toNat]

end Sys2Proof.Proofs
end

section
/-! PROOFS. The codec: decoding an encoded instruction, and encoding a decoded word (30_encoding.md R88 to R92). -/

namespace Sys2Proof

/-! ### The instruction of its fields -/

@[simp] theorem Instr.ofFields_operation (op : Operation) (r : Reg) (c : Cond) (l : Byte) :
    (Instr.ofFields op r c l).operation = op := by
  cases op <;> rfl

@[simp] theorem Instr.ofFields_condition (op : Operation) (r : Reg) (c : Cond) (l : Byte) :
    (Instr.ofFields op r c l).condition = c := by
  cases op <;> rfl

@[simp] theorem Instr.ofFields_register (op : Operation) (r : Reg) (c : Cond) (l : Byte) :
    (Instr.ofFields op r c l).register = if op.hasRegister then some r else none := by
  cases op <;> rfl

@[simp] theorem Instr.ofFields_payload (op : Operation) (r : Reg) (c : Cond) (l : Byte) :
    (Instr.ofFields op r c l).payload = if op.hasPayload then l else 0#8 := by
  cases op <;> rfl

/-- An instruction is the one of its own record. -/
theorem Instr.ofFields_toRecord (i : Instr) :
    Instr.ofFields i.operation (Reg.ofIndex (regIndexField i.register)) i.condition
      (if i.operation.hasPayload then i.payload else 0#8) = i := by
  have hr (r : Reg) : Reg.ofIndex (regIndexField (some r)) = r := by cases r <;> rfl
  cases i with
  | store r c a => exact congrArg (Instr.store · c a) (hr r)
  | load r c a => exact congrArg (Instr.load · c a) (hr r)
  | loadImmediate r c v => exact congrArg (Instr.loadImmediate · c v) (hr r)
  | out r c => exact congrArg (Instr.out · c) (hr r)
  | _ => rfl

/-- A field that the operation does not have makes no difference (30_encoding.md R85). -/
theorem Instr.ofFields_congr {op : Operation} {r r' : Reg} {l l' : Byte} (c : Cond)
    (hr : op.hasRegister = true → r' = r) (hl : op.hasPayload = true → l' = l) :
    Instr.ofFields op r' c l' = Instr.ofFields op r c l := by
  cases op <;> simp_all [Instr.ofFields, Operation.hasRegister, Operation.hasPayload]

/-! ### Decoding by fields -/

/-- What `decode` answers, as a statement about the opcode. -/
theorem decode_eq_ok_iff {u l : Byte} {i : Instr} :
    decode u l = .ok i ↔ ∃ op, Operation.ofCode (opcodeField u) = some op ∧
      i = Instr.ofFields op (Reg.ofIndex (regField u)) (Cond.ofBit (condField u)) l := by
  unfold decode
  cases Operation.ofCode (opcodeField u) <;> simp [eq_comm]

/-- The payload of a decoded instruction is the lower byte. -/
theorem payload_of_decode {u l : Byte} {i : Instr} (h : decode u l = .ok i) (hp : i.operation.hasPayload = true) :
    i.payload = l := by
  obtain ⟨op, -, rfl⟩ := decode_eq_ok_iff.mp h
  rw [Instr.ofFields_operation] at hp
  simp [hp]

/-! ### Decoding an encoded record -/

theorem Cond.ofBit_condField_encodeRecord (r : InstrRecord) :
    Cond.ofBit (condField (encodeRecord r).1) = r.condition := by
  rw [condField, encodeRecord_upper, BitVec.getLsbD_append, BitVec.getLsbD_append]
  cases r.condition <;> rfl

/-- Every field of an encoded record is read back. -/
theorem decode_encodeRecord (r : InstrRecord) :
    decode (encodeRecord r).1 (encodeRecord r).2 =
      .ok (Instr.ofFields r.operation (Reg.ofIndex (regIndexField r.register)) r.condition
        (if r.operation.hasPayload then r.payload else 0#8)) := by
  refine decode_eq_ok_iff.mpr ⟨r.operation, by simp, ?_⟩
  rw [regField_encodeRecord, Cond.ofBit_condField_encodeRecord]
  rfl

theorem decode_encode (i : Instr) : decode (encode i).1 (encode i).2 = .ok i :=
  (decode_encodeRecord i.toRecord).trans (congrArg Except.ok i.ofFields_toRecord)

/-- A valid record is that of the instruction of its fields (30_encoding.md R92). -/
theorem InstrRecord.toRecord_ofFields {r : InstrRecord} (h : r.valid = true) :
    (Instr.ofFields r.operation (Reg.ofIndex (regIndexField r.register)) r.condition
      (if r.operation.hasPayload then r.payload else 0#8)).toRecord = r := by
  obtain ⟨op, reg, c, v⟩ := r
  simp only [InstrRecord.valid, InstrRecord.registerValid, InstrRecord.payloadValid, Bool.and_eq_true, beq_iff_eq,
    Bool.or_eq_true] at h
  obtain ⟨hreg, hpay⟩ := h
  have hr : (if op.hasRegister then some (Reg.ofIndex (regIndexField reg)) else none) = reg := by
    rw [← hreg]
    cases reg with
    | none => rfl
    | some q => cases q <;> rfl
  have hv : (if op.hasPayload then v else 0#8) = v := by
    rcases hpay with hp | rfl
    · exact if_pos hp
    · exact ite_self _
  simp [Instr.toRecord, hr, hv]

/-! ### The bits that `decode` ignores -/

/-- An upper byte is its four fields side by side (30_encoding.md R81). -/
theorem upper_eq_fields (u : Byte) :
    u = opcodeField u ++ regField u ++ BitVec.ofBool (condField u) ++ BitVec.ofBool (reservedField u) := by
  refine BitVec.eq_of_getLsbD_eq fun k hk => ?_
  simp only [opcodeField, regField, condField, reservedField, BitVec.getLsbD_append, BitVec.getLsbD_extractLsb',
    BitVec.getLsbD_ofBool]
  interval_cases k <;> simp

theorem Cond.bit_ofBit (b : Bool) : (Cond.ofBit b).bit = BitVec.ofBool b := by
  cases b <;> rfl

theorem regIndexField_ofIndex (n : BitVec 2) : regIndexField (some (Reg.ofIndex n)) = n := by
  decide +revert

/-- An encoding has no ignored bit set. -/
theorem ignoredBitsZero_encode (i : Instr) : ignoredBitsZero (encode i).1 (encode i).2 = true := by
  unfold ignoredBitsZero encode
  rw [opcodeField_encodeRecord, Operation.ofCode_code]
  simp only [reservedField_encodeRecord, regField_encodeRecord]
  cases i <;> rfl

/-- A word without an ignored bit is the encoding of the instruction it decodes to: each of its fields is either one of
the instruction's own or 0. -/
theorem encode_of_ignoredBitsZero {u l : Byte} {i : Instr} (h : decode u l = .ok i)
    (hz : ignoredBitsZero u l = true) : encode i = (u, l) := by
  obtain ⟨op, hop, rfl⟩ := decode_eq_ok_iff.mp h
  simp only [ignoredBitsZero, hop, Bool.and_eq_true, Bool.or_eq_true, Bool.not_eq_true', beq_iff_eq] at hz
  obtain ⟨⟨hres, hreg⟩, hpay⟩ := hz
  have hr : regIndexField (if op.hasRegister then some (Reg.ofIndex (regField u)) else none) = regField u := by
    rcases hreg with hreg | hreg
    · rw [if_pos hreg, regIndexField_ofIndex]
    · rw [hreg]
      cases op.hasRegister <;> rfl
  have hl : (if op.hasPayload then l else 0#8) = l := by
    rcases hpay with hp | rfl
    · exact if_pos hp
    · exact ite_self _
  refine Prod.ext ?_ ?_
  · rw [encode, encodeRecord_upper]
    conv_rhs => rw [upper_eq_fields u]
    simp [Instr.toRecord, hr, hres, Cond.bit_ofBit, Operation.code_of_ofCode hop]
  · simp [encode, encodeRecord, Instr.toRecord, hl]

end Sys2Proof

namespace Sys2Proof.Proofs
open Sys2Proof

/-- Settles O1: every field is read back, and the two forms of an instruction hold the same fields. -/
theorem decodeEncodeRoundTrip : Obligations.DecodeEncodeRoundTrip := by
  refine ⟨decode_encode, fun r hr => ?_⟩
  rw [decodeRecord, decode_encodeRecord]
  exact congrArg Except.ok (InstrRecord.toRecord_ofFields hr)

/-- Settles O2: an encoding has no ignored bit, and a word without one is determined by its instruction. -/
theorem encodeDecodeExactlyWithoutIgnoredBits : Obligations.EncodeDecodeExactlyWithoutIgnoredBits := by
  refine fun u l i h => ⟨fun he => ?_, encode_of_ignoredBitsZero h⟩
  have hz := ignoredBitsZero_encode i
  rwa [he] at hz

/-- Settles O6: the operation and the condition are the same, and so are the fields that the operation has. -/
theorem decodeIgnoresUnusedBits : Obligations.DecodeIgnoresUnusedBits := by
  intro u u' l l' i h hopcode hcond hreg hpay
  obtain ⟨op, hop, rfl⟩ := decode_eq_ok_iff.mp h
  rw [Instr.ofFields_operation] at hreg hpay
  refine decode_eq_ok_iff.mpr ⟨op, by rw [hopcode, hop], ?_⟩
  rw [hcond]
  exact Instr.ofFields_congr _ (fun hr => by rw [hreg hr]) (fun hp => (hpay hp).symm)

/-- Settles O7, by evaluating the decoder on the nine words. -/
theorem specWordsDecode : Obligations.SpecWordsDecode :=
  ⟨rfl, rfl, rfl, rfl, rfl, rfl, rfl, rfl, rfl⟩

end Sys2Proof.Proofs
end

section
/-! PROOFS. The writes of an execute phase, step by step: those of the microcode table's lines (40_sequencer.md R102,
R109) are those of the meanings, so that an instruction is its ticks. -/

namespace Sys2Proof.Machine

/-! ### The writes of each step -/

/-- What step 2 of an instruction writes, whatever its condition (40_sequencer.md R105). -/
def stepTwoWrite : Instr → State → State
  | .store _ _ a => fun s => { s with ramAddr := a }
  | .load _ _ a => fun s => { s with ramAddr := a }
  | .add _ a => fun s => { s with ramAddr := a }
  | .sub _ a => fun s => { s with ramAddr := a }
  | .jump _ a => fun s => { s with ramAddr := a }
  | .noOp _ => id
  | .loadImmediate _ _ _ => id
  | .addImmediate _ _ => id
  | .subImmediate _ _ => id
  | .jumpImmediate _ _ => id
  | .out _ _ => id
  | .halt _ => id

/-- What step 3 of an instruction writes where its gate is open (40_sequencer.md R102). -/
def stepThreeWrite (p : Config.Params) : Instr → State → State
  | .noOp _ => id
  | .store r _ _ => fun s => s.memWriteWith p s.ramAddr (s.reg r)
  | .load r _ _ => fun s => s.setReg r s.ramOperand
  | .loadImmediate r _ v => fun s => s.setReg r v
  | .add _ _ => fun s => s.setReg .r2 s.ramOperand
  | .addImmediate _ v => fun s => s.setReg .r2 v
  | .sub _ _ => fun s => s.setReg .r2 s.ramOperand
  | .subImmediate _ v => fun s => s.setReg .r2 v
  | .jump _ _ => fun s => { s with pc := s.ramOperand }
  | .jumpImmediate _ t => fun s => { s with pc := t }
  | .out r _ => fun s => { s with dec := s.reg r }
  | .halt _ => fun s => { s with finished := true }

/-- What step 4 of an instruction writes where its gate is open (40_sequencer.md R102). -/
def stepFourWrite : Instr → State → State
  | .add _ _ => fun s => s.latchAlu false
  | .addImmediate _ _ => fun s => s.latchAlu false
  | .sub _ _ => fun s => s.latchAlu true
  | .subImmediate _ _ => fun s => s.latchAlu true
  | .noOp _ => id
  | .store _ _ _ => id
  | .load _ _ _ => id
  | .loadImmediate _ _ _ => id
  | .jump _ _ => id
  | .jumpImmediate _ _ => id
  | .out _ _ => id
  | .halt _ => id

variable (p : Config.Params) (i : Instr) (s : State)

@[simp] theorem stepTwoWrite_stepCounter : (stepTwoWrite i s).stepCounter = s.stepCounter := by cases i <;> rfl
@[simp] theorem stepTwoWrite_overflow : (stepTwoWrite i s).overflow = s.overflow := by cases i <;> rfl
@[simp] theorem stepTwoWrite_finished : (stepTwoWrite i s).finished = s.finished := by cases i <;> rfl
@[simp] theorem stepTwoWrite_current : (stepTwoWrite i s).current = s.current := by cases i <;> rfl

@[simp] theorem stepThreeWrite_stepCounter : (stepThreeWrite p i s).stepCounter = s.stepCounter := by
  cases i <;> simp [stepThreeWrite]

@[simp] theorem stepThreeWrite_overflow : (stepThreeWrite p i s).overflow = s.overflow := by
  cases i <;> simp [stepThreeWrite]

@[simp] theorem stepThreeWrite_current : (stepThreeWrite p i s).current = s.current := by
  cases i <;> simp [stepThreeWrite, State.current, State.payload, State.romRead]

theorem stepThreeWrite_finished (h : i.operation ≠ .halt) : (stepThreeWrite p i s).finished = s.finished := by
  cases i with
  | halt c => exact absurd rfl h
  | _ => simp [stepThreeWrite]

@[simp] theorem stepFourWrite_stepCounter : (stepFourWrite i s).stepCounter = s.stepCounter := by cases i <;> rfl
@[simp] theorem stepFourWrite_finished : (stepFourWrite i s).finished = s.finished := by cases i <;> rfl
@[simp] theorem stepFourWrite_current : (stepFourWrite i s).current = s.current := by cases i <;> rfl

/-! ### They are what the lines of the table do -/

/-- The payload that `i` carries is the byte that ROM bank 1 holds for it (30_encoding.md R87). -/
theorem payload_of_current {s : State} {i : Instr} (h : s.current = .ok i) (hp : i.operation.hasPayload = true) :
    i.payload = s.payload :=
  payload_of_decode h hp

@[simp] theorem applyLines_off : applyLines p Lines.off s = s := rfl

theorem applyLines_stepTwoLines {s : State} {i : Instr} (h : s.current = .ok i) :
    applyLines p (stepTwoLines i) s = stepTwoWrite i s := by
  have hp := payload_of_current h
  cases i with
  | store r c a | load r c a | add c a | sub c a | jump c a =>
    cases hp rfl
    rfl
  | _ => rfl

/-- A register on the bus and `ramValueIn`: the RAM write of a store. -/
theorem applyLines_store (r : Reg) :
    applyLines p { Lines.off.withRegOut r with ramValueIn := true } s = s.memWriteWith p s.ramAddr (s.reg r) := by
  have hb : drivenBus { Lines.off.withRegOut r with ramValueIn := true } s = s.reg r := by cases r <;> rfl
  unfold applyLines
  rw [hb]
  cases r <;> simp [latchRam, State.memWriteWith] <;> cases ioIndex p s.ramAddr <;> rfl

theorem applyLines_stepThreeLines {s : State} {i : Instr} (h : s.current = .ok i) :
    applyLines p (stepThreeLines i) s = stepThreeWrite p i s := by
  have hp := payload_of_current h
  cases i with
  | store r c a => exact applyLines_store p s r
  | load r c a => cases r <;> rfl
  | loadImmediate r c v =>
    cases hp rfl
    cases r <;> rfl
  | addImmediate c v | subImmediate c v | jumpImmediate c v =>
    cases hp rfl
    rfl
  | out r c => cases r <;> rfl
  | _ => rfl

theorem applyLines_stepFourLines : applyLines p (stepFourLines i) s = stepFourWrite i s := by
  cases i <;> rfl

end Sys2Proof.Machine
end

section
/-! PROOFS. An instruction is its ticks: a tick before the last leaves the step that is to come as it is, and the last
tick is what is left of the step (40_sequencer.md R100, R102, R108). -/

namespace Sys2Proof.Machine

/-! ### The execute phase as the writes of its steps -/

/-- The writes of an execute phase that are still to come (40_sequencer.md R105, R106). -/
def executeWrites (p : Config.Params) (i : Instr) (s : State) : State :=
  ((if s.due .s2 then stepTwoWrite i s else s).onStep .s3 i.condition (stepThreeWrite p i)).onStep .s4 i.condition
    (stepFourWrite i)

@[simp] theorem State.onStep_id (s : State) (k : MicroStep) (c : Cond) : s.onStep k c id = s :=
  ite_self s

/-- Every instruction but `halt` makes its writes and ends. -/
theorem execWith_eq_complete (p : Config.Params) {i : Instr} (hi : i.operation ≠ .halt) (s : State) :
    execWith p i s = .next (executeWrites p i s).complete := by
  cases i with
  | halt c => exact absurd rfl hi
  | add c a | sub c a => rfl
  | addImmediate c v | subImmediate c v =>
    simp only [executeWrites, stepTwoWrite, id, ite_self]
    rfl
  | store r c a | load r c a | jump c a =>
    simp only [executeWrites, stepFourWrite, State.onStep_id]
    rfl
  | noOp c | loadImmediate r c v | jumpImmediate c t | out r c =>
    simp only [executeWrites, stepTwoWrite, stepThreeWrite, stepFourWrite, State.onStep_id, id, ite_self]
    rfl

section
variable (p : Config.Params) (i : Instr) {s : State}

theorem executeWrites_at_s2 (h : s.stepCounter = .s2) :
    executeWrites p i s = ((stepTwoWrite i s).onStep .s3 i.condition (stepThreeWrite p i)).onStep .s4 i.condition
      (stepFourWrite i) := by
  simp [executeWrites, State.due, h]

theorem executeWrites_at_s3 (h : s.stepCounter = .s3) :
    executeWrites p i s =
      (s.onStep .s3 i.condition (stepThreeWrite p i)).onStep .s4 i.condition (stepFourWrite i) := by
  simp [executeWrites, State.due, h, MicroStep.toNat]

theorem executeWrites_at_s4 (h : s.stepCounter = .s4) :
    executeWrites p i s = s.onStep .s4 i.condition (stepFourWrite i) := by
  simp [executeWrites, State.onStep, State.due, h, MicroStep.toNat]

theorem executeWrites_at_s5 (h : s.stepCounter = .s5) : executeWrites p i s = s := by
  simp [executeWrites, State.onStep, State.due, h, MicroStep.toNat]

end

/-! ### The end of a tick and the writes that come after it -/

theorem memWriteWith_endTick (p : Config.Params) (s : State) (a v : Byte) (ls : Lines) :
    (s.endTick ls).memWriteWith p a v = (s.memWriteWith p a v).endTick ls := by
  unfold State.memWriteWith
  cases ioIndex p a <;> rfl

theorem stepThreeWrite_endTick (p : Config.Params) (i : Instr) (s : State) (ls : Lines) :
    stepThreeWrite p i (s.endTick ls) = (stepThreeWrite p i s).endTick ls := by
  cases i with
  | store r c a =>
    simp only [stepThreeWrite, State.endTick_reg, State.endTick_ramAddr]
    exact memWriteWith_endTick p s _ _ ls
  | load r c a | loadImmediate r c v | out r c => cases r <;> rfl
  | _ => rfl

theorem stepFourWrite_endTick (i : Instr) (s : State) (ls : Lines) :
    stepFourWrite i (s.endTick ls) = (stepFourWrite i s).endTick ls := by
  cases i <;> rfl

/-- A write that does not see the end of a tick is made after it as before it, where its step is still to come. -/
theorem State.onStep_endTick {s : State} {k : MicroStep} (hk : s.stepCounter.toNat < k.toNat) {w : State → State}
    {ls : Lines} (hw : ∀ t : State, w (t.endTick ls) = (w t).endTick ls) (c : Cond) :
    (s.endTick ls).onStep k c w = (s.onStep k c w).endTick ls := by
  have hn : s.stepCounter.next.toNat ≤ k.toNat := by
    have hlt := k.toNat_lt
    rw [MicroStep.next_toNat]
    omega
  have hd : (s.endTick ls).due k = true := decide_eq_true hn
  have hd' : s.due k = true := decide_eq_true hk.le
  unfold State.onStep
  rw [hd, hd', State.endTick_overflow, hw]
  split <;> rfl

/-- A tick within the execute phase is one of those that the end of the instruction counts. -/
theorem State.complete_endTick {s : State} (h2 : 2 ≤ s.stepCounter.toNat) (h5 : s.stepCounter ≠ .s5) (ls : Lines) :
    (s.endTick ls).complete = s.complete := by
  cases h : s.stepCounter <;> simp_all [State.complete, State.elapse, State.endTick, MicroStep.next, MicroStep.toNat,
    MicroStep.afterNext, Nat.add_assoc]

/-- The last tick of an instruction. -/
theorem State.endTick_off_at_s5 {s : State} (h : s.stepCounter = .s5) : s.endTick Lines.off = s.complete := by
  simp [State.complete, State.elapse, State.endTick, h, MicroStep.next, MicroStep.afterNext]

/-! ### The ticks of an execute phase -/

/-- The state that the tick of an execute phase leaves. -/
def executeTick (p : Config.Params) (i : Instr) (s : State) : State :=
  match s.stepCounter with
  | .s2 => (stepTwoWrite i s).endTick (stepTwoLines i)
  | .s3 => (s.onStep .s3 i.condition (stepThreeWrite p i)).endTick (instrLines .s3 i (gate i.condition s.overflow))
  | .s4 => (s.onStep .s4 i.condition (stepFourWrite i)).endTick (instrLines .s4 i (gate i.condition s.overflow))
  | .s5 => s.endTick Lines.off
  | .s0 => s
  | .s1 => s

section
variable (p : Config.Params) (i : Instr) {s : State}

theorem executeTick_at_s2 (h : s.stepCounter = .s2) :
    executeTick p i s = (stepTwoWrite i s).endTick (stepTwoLines i) := by
  simp only [executeTick, h]

theorem executeTick_at_s3 (h : s.stepCounter = .s3) :
    executeTick p i s = (s.onStep .s3 i.condition (stepThreeWrite p i)).endTick
      (instrLines .s3 i (gate i.condition s.overflow)) := by
  simp only [executeTick, h]

theorem executeTick_at_s4 (h : s.stepCounter = .s4) :
    executeTick p i s = (s.onStep .s4 i.condition (stepFourWrite i)).endTick
      (instrLines .s4 i (gate i.condition s.overflow)) := by
  simp only [executeTick, h]

theorem executeTick_at_s5 (h : s.stepCounter = .s5) : executeTick p i s = s.complete := by
  simp only [executeTick, h]
  exact State.endTick_off_at_s5 h

end

theorem onStep_stepThreeWrite_stepCounter (p : Config.Params) (i : Instr) (s : State) :
    (s.onStep .s3 i.condition (stepThreeWrite p i)).stepCounter = s.stepCounter :=
  State.onStep_keeps State.stepCounter s _ _ _ (stepThreeWrite_stepCounter p i)

theorem onStep_stepFourWrite_stepCounter (i : Instr) (s : State) :
    (s.onStep .s4 i.condition (stepFourWrite i)).stepCounter = s.stepCounter :=
  State.onStep_keeps State.stepCounter s _ _ _ (stepFourWrite_stepCounter i)

/-- The tick applies the line set of its step, whose effects are the writes of the step. -/
theorem clockTickWith_of_current (p : Config.Params) {s : State} {i : Instr} (hf : s.finished = false)
    (h2 : 2 ≤ s.stepCounter.toNat) (h : s.current = .ok i) : clockTickWith p s = .next (executeTick p i s) := by
  rw [clockTickWith_of_decode hf h]
  cases hs : s.stepCounter with
  | s0 | s1 => simp [hs, MicroStep.toNat] at h2
  | s2 => simp [executeTick, hs, instrLines, applyLines_stepTwoLines p h]
  | s3 =>
    cases hg : gate i.condition s.overflow <;>
      simp [executeTick, hs, hg, instrLines, State.onStep, State.due, applyLines_stepThreeLines p h]
  | s4 =>
    cases hg : gate i.condition s.overflow <;>
      simp [executeTick, hs, hg, instrLines, State.onStep, State.due, applyLines_stepFourLines]
  | s5 => simp [executeTick, hs, instrLines]

theorem executeTick_current (p : Config.Params) (i : Instr) (s : State) : (executeTick p i s).current = s.current := by
  have he (t : State) (ls : Lines) : (t.endTick ls).current = t.current := rfl
  unfold executeTick
  split
  · rw [he, stepTwoWrite_current]
  · rw [he, State.onStep_keeps State.current s _ _ _ (stepThreeWrite_current p i)]
  · rw [he, State.onStep_keeps State.current s _ _ _ (stepFourWrite_current i)]
  all_goals rfl

/-- Before its last tick, an execute phase leaves to its other ticks the rest of its writes. -/
theorem executeWrites_executeTick (p : Config.Params) (i : Instr) {s : State} (h2 : 2 ≤ s.stepCounter.toNat)
    (h5 : s.stepCounter ≠ .s5) :
    (executeWrites p i (executeTick p i s)).complete = (executeWrites p i s).complete := by
  cases hs : s.stepCounter with
  | s0 | s1 => simp [hs, MicroStep.toNat] at h2
  | s5 => exact absurd hs h5
  | s2 =>
    have htwo : (stepTwoWrite i s).stepCounter = .s2 := (stepTwoWrite_stepCounter i s).trans hs
    have hthree := (onStep_stepThreeWrite_stepCounter p i (stepTwoWrite i s)).trans htwo
    have hfour := (onStep_stepFourWrite_stepCounter i _).trans hthree
    rw [executeTick_at_s2 p i hs, executeWrites_at_s3 p i (by rw [State.endTick_stepCounter, htwo]; rfl),
      executeWrites_at_s2 p i hs, State.onStep_endTick (by rw [htwo]; decide) (stepThreeWrite_endTick p i · _),
      State.onStep_endTick (by rw [hthree]; decide) (stepFourWrite_endTick i · _),
      State.complete_endTick (by rw [hfour]; decide) (by rw [hfour]; decide)]
  | s3 =>
    have hthree := (onStep_stepThreeWrite_stepCounter p i s).trans hs
    have hfour := (onStep_stepFourWrite_stepCounter i _).trans hthree
    rw [executeTick_at_s3 p i hs, executeWrites_at_s4 p i (by rw [State.endTick_stepCounter, hthree]; rfl),
      executeWrites_at_s3 p i hs, State.onStep_endTick (by rw [hthree]; decide) (stepFourWrite_endTick i · _),
      State.complete_endTick (by rw [hfour]; decide) (by rw [hfour]; decide)]
  | s4 =>
    have hfour := (onStep_stepFourWrite_stepCounter i s).trans hs
    rw [executeTick_at_s4 p i hs, executeWrites_at_s5 p i (by rw [State.endTick_stepCounter, hfour]; rfl),
      executeWrites_at_s4 p i hs, State.complete_endTick (by rw [hfour]; decide) (by rw [hfour]; decide)]

/-! ### A step, from within its execute phase -/

theorem State.fetch_of_execute {s : State} (h2 : 2 ≤ s.stepCounter.toNat) : s.fetch = s := by
  unfold State.fetch
  cases hs : s.stepCounter with
  | s0 | s1 => simp [hs, MicroStep.toNat] at h2
  | _ => rfl

/-- A step of an unfinished machine depends on the state after the fetch alone. -/
theorem stepWith_congr_fetch (p : Config.Params) {s t : State} (hs : s.finished = false) (ht : t.finished = false)
    (h : t.fetch = s.fetch) : stepWith p t = stepWith p s := by
  simp [stepWith, hs, ht, h]

theorem stepWith_of_current (p : Config.Params) {s : State} {i : Instr} (hf : s.finished = false)
    (h : s.fetch.current = .ok i) : stepWith p s = execWith p i s.fetch := by
  simp [stepWith, hf, h]

theorem stepWith_of_invalid (p : Config.Params) {s : State} {e : DecodeError} (hf : s.finished = false)
    (h : s.fetch.current = .error e) : stepWith p s = invalidOpcodeWith p s.fetch := by
  simp [stepWith, hf, h]

theorem stepWith_of_finished (p : Config.Params) {s : State} (hf : s.finished = true) : stepWith p s = .next s := by
  simp [stepWith, hf]

/-! ### Halt -/

theorem execHalt_taken (c : Cond) {s : State} (hd : s.due .s3 = true) (hg : gate c s.overflow = true) :
    execHalt c s = .next s.stop := by
  simp [execHalt, hd, hg]

theorem execHalt_past (c : Cond) {s : State} (hd : s.due .s3 = false) : execHalt c s = .next s.complete := by
  simp [execHalt, hd]

theorem execHalt_gated {c : Cond} {s : State} (hg : gate c s.overflow = false) : execHalt c s = .next s.complete := by
  simp [execHalt, hg]

/-- A tick that is not that of a taken halt leaves what is left of a halt's execute phase as it is. -/
theorem execHalt_endTick {c : Cond} {s : State} (h2 : 2 ≤ s.stepCounter.toNat) (h5 : s.stepCounter ≠ .s5)
    (hg : s.stepCounter = .s3 → gate c s.overflow = false) (ls : Lines) :
    execHalt c (s.endTick ls) = execHalt c s := by
  cases hs : s.stepCounter with
  | s0 | s1 => simp [hs, MicroStep.toNat] at h2
  | s5 => exact absurd hs h5
  | s2 =>
    have hstop : (s.endTick ls).stop = s.stop := by
      simp [State.stop, State.elapse, State.endTick, hs, MicroStep.next, MicroStep.afterNext]
    simp [execHalt, State.due, hs, MicroStep.next, MicroStep.toNat, hstop, State.complete_endTick h2 h5]
  | s3 => rw [execHalt_gated (hg hs), execHalt_gated (s := s.endTick ls) (hg hs), State.complete_endTick h2 h5]
  | s4 =>
    rw [execHalt_past c (by rw [State.due, State.endTick_stepCounter, hs]; rfl),
      execHalt_past c (by rw [State.due, hs]; rfl), State.complete_endTick h2 h5]

/-! ### A tick leaves the step as it is -/

theorem executeTick_stepCounter (p : Config.Params) (i : Instr) {s : State} (h2 : 2 ≤ s.stepCounter.toNat) :
    (executeTick p i s).stepCounter = s.stepCounter.next := by
  unfold executeTick
  cases hs : s.stepCounter with
  | s0 | s1 => simp [hs, MicroStep.toNat] at h2
  | s2 => simp [hs]
  | s3 => simp [hs, onStep_stepThreeWrite_stepCounter]
  | s4 => simp [hs, onStep_stepFourWrite_stepCounter]
  | s5 => simp [hs]

theorem executeTick_finished (p : Config.Params) {i : Instr} (hi : i.operation ≠ .halt) (s : State) :
    (executeTick p i s).finished = s.finished := by
  unfold executeTick
  split
  · simp
  · exact State.onStep_keeps State.finished s _ _ _ (stepThreeWrite_finished p i · hi)
  · exact State.onStep_keeps State.finished s _ _ _ (stepFourWrite_finished i)
  all_goals rfl

/-- The tick of a halt is its plain end, or, where the gate is open at step 3, the stop of the machine. -/
theorem executeTick_halt_cases (p : Config.Params) (c : Cond) {s : State} (h2 : 2 ≤ s.stepCounter.toNat) :
    (s.stepCounter = .s3 ∧ gate c s.overflow = true ∧ executeTick p (.halt c) s = s.stop) ∨
    ((s.stepCounter = .s3 → gate c s.overflow = false) ∧ executeTick p (.halt c) s = s.endTick Lines.off) := by
  cases hs : s.stepCounter with
  | s0 | s1 => simp [hs, MicroStep.toNat] at h2
  | s3 =>
    cases hg : gate c s.overflow with
    | false => simp [executeTick, hs, hg, instrLines, Instr.condition, State.onStep_gated hg]
    | true =>
      refine .inl ⟨rfl, rfl, ?_⟩
      have hw := State.onStep_taken (k := .s3) (by simp [State.due, hs]) hg (stepThreeWrite p (.halt c))
      rw [executeTick_at_s3 p _ hs, Instr.condition, hw]
      simp [hg, instrLines, stepThreeLines, stepThreeWrite, State.stop, State.elapse, State.endTick, hs,
        MicroStep.next, MicroStep.afterNext]
  | s4 =>
    refine .inr ⟨by simp, ?_⟩
    rw [executeTick_at_s4 p _ hs, show stepFourWrite (.halt c) = id from rfl, State.onStep_id]
    simp [instrLines, stepFourLines]
  | s2 => exact .inr ⟨by simp, executeTick_at_s2 p _ hs⟩
  | s5 => exact .inr ⟨by simp, by rw [executeTick_at_s5 p _ hs, State.endTick_off_at_s5 hs]⟩

/-- A tick of a valid instruction's execute phase leaves the step that is to come as it is. -/
theorem stepWith_executeTick (p : Config.Params) {i : Instr} {s : State} (hf : s.finished = false)
    (h2 : 2 ≤ s.stepCounter.toNat) (h5 : s.stepCounter ≠ .s5) (h : s.current = .ok i) :
    stepWith p (executeTick p i s) = stepWith p s := by
  have ht2 : 2 ≤ (executeTick p i s).stepCounter.toNat := by
    rw [executeTick_stepCounter p i h2]
    cases hs : s.stepCounter <;> simp_all [MicroStep.next, MicroStep.toNat]
  have hrun (t : State) (hf : t.finished = false) (h2 : 2 ≤ t.stepCounter.toNat) (h : t.current = .ok i) :
      stepWith p t = execWith p i t := by
    rw [stepWith_of_current p hf (by rw [State.fetch_of_execute h2, h]), State.fetch_of_execute h2]
  have hstep := hrun s hf h2 h
  have htick (hu : (executeTick p i s).finished = false) :=
    hrun (executeTick p i s) hu ht2 (by rw [executeTick_current, h])
  by_cases hi : i.operation = .halt
  · cases i with
    | halt c =>
      rcases executeTick_halt_cases p c h2 with ⟨hs, hg, e⟩ | ⟨hg, e⟩
      · rw [hstep, e, stepWith_of_finished p s.stop_finished]
        exact (execHalt_taken c (by simp [State.due, hs]) hg).symm
      · rw [hstep, htick (by rw [e]; exact hf), e]
        exact execHalt_endTick h2 h5 hg _
    | _ => cases hi
  · rw [hstep, htick (by rw [executeTick_finished p hi, hf]), execWith_eq_complete p hi, execWith_eq_complete p hi,
      executeWrites_executeTick p i h2 h5]

/-! ### Invalid opcodes (40_sequencer.md R113) -/

theorem invalidOpcodeFault_eq_none (p : Config.Params) {s : State} (h : s.stepCounter ≠ .s2) :
    invalidOpcodeFault p s = none := by
  unfold invalidOpcodeFault
  cases p.invalidOpcode <;> cases hs : s.stepCounter <;> simp_all

theorem invalidOpcodeWith_of_fault {p : Config.Params} {s : State} {f : Fault} (h : invalidOpcodeFault p s = some f) :
    invalidOpcodeWith p s = .fault f := by
  simp [invalidOpcodeWith, h]

theorem invalidOpcodeWith_of_none {p : Config.Params} {s : State} (h : invalidOpcodeFault p s = none) :
    invalidOpcodeWith p s = .next s.complete := by
  simp [invalidOpcodeWith, h]

theorem tickFault_of_invalid (p : Config.Params) {s : State} {e : DecodeError} (h : s.current = .error e) :
    tickFault p s = invalidOpcodeFault p s := by
  simp [tickFault, decode_error_any h 0#8]

/-- The tick of an invalid opcode, where it does not fault, asserts nothing. -/
theorem clockTickWith_of_invalid {p : Config.Params} {s : State} {e : DecodeError} (hf : s.finished = false)
    (h2 : 2 ≤ s.stepCounter.toNat) (h : s.current = .error e) (hn : invalidOpcodeFault p s = none) :
    clockTickWith p s = .next (s.endTick Lines.off) := by
  have hlines : microcode s.stepCounter s.ir s.overflow = Lines.off := by
    rw [microcode_of_invalid h]
    cases hs : s.stepCounter with
    | s0 | s1 => simp [hs, MicroStep.toNat] at h2
    | _ => rfl
  simp [clockTickWith, hf, tickFault_of_invalid p h, hn, hlines]

/-- A tick of an invalid opcode leaves the step that is to come as it is. -/
theorem stepWith_endTick_of_invalid {p : Config.Params} {s : State} {e : DecodeError} (hf : s.finished = false)
    (h2 : 2 ≤ s.stepCounter.toNat) (h5 : s.stepCounter ≠ .s5) (h : s.current = .error e)
    (hn : invalidOpcodeFault p s = none) :
    stepWith p (s.endTick Lines.off) = stepWith p s := by
  have hnext : 3 ≤ (s.endTick Lines.off).stepCounter.toNat := by
    rw [State.endTick_stepCounter]
    cases hs : s.stepCounter <;> simp_all [MicroStep.next, MicroStep.toNat]
  have hne : (s.endTick Lines.off).stepCounter ≠ .s2 := fun e => by rw [e] at hnext; exact absurd hnext (by decide)
  have hfetch := State.fetch_of_execute (s := s.endTick Lines.off) (by omega)
  rw [stepWith_of_invalid p hf (by rw [State.fetch_of_execute h2, h]),
    stepWith_of_invalid p (s := s.endTick Lines.off) hf (e := e) (by rw [hfetch]; exact h), hfetch,
    State.fetch_of_execute h2, invalidOpcodeWith_of_none hn,
    invalidOpcodeWith_of_none (invalidOpcodeFault_eq_none p hne), State.complete_endTick h2 h5]

/-! ### One tick of a step -/

/-- A tick that is not the last of its instruction leaves the step that is to come as it is. -/
theorem stepWith_of_clockTick {p : Config.Params} {s t : State} (hf : s.finished = false) (h5 : s.stepCounter ≠ .s5)
    (h : clockTickWith p s = .next t) : stepWith p t = stepWith p s := by
  by_cases h2 : 2 ≤ s.stepCounter.toNat
  · cases hc : s.current with
    | ok i =>
      rw [clockTickWith_of_current p hf h2 hc] at h
      cases h
      exact stepWith_executeTick p hf h2 h5 hc
    | error e =>
      have hn : invalidOpcodeFault p s = none :=
        (tickFault_of_invalid p hc).symm.trans (clockTickWith_next hf h).1
      rw [clockTickWith_of_invalid hf h2 hc hn] at h
      cases h
      exact stepWith_endTick_of_invalid hf h2 h5 hc hn
  · cases hs : s.stepCounter with
    | s0 =>
      rw [clockTickWith_at_s0 hf hs] at h
      cases h
      exact stepWith_congr_fetch p hf hf (by simp [State.fetch, hs, State.fetchAddress, MicroStep.next])
    | s1 =>
      rw [clockTickWith_at_s1 hf hs] at h
      cases h
      exact stepWith_congr_fetch p hf hf (by simp [State.fetch, hs, State.fetchUpper, MicroStep.next])
    | _ => simp [hs, MicroStep.toNat] at h2

/-- The last tick of an instruction is all that is left of its step. -/
theorem stepWith_of_clockTick_at_s5 {p : Config.Params} {s t : State} (hf : s.finished = false)
    (h5 : s.stepCounter = .s5) (h : clockTickWith p s = .next t) : stepWith p s = .next t := by
  have h2 : 2 ≤ s.stepCounter.toNat := by rw [h5]; decide
  have hfetch := State.fetch_of_execute h2
  cases hc : s.current with
  | ok i =>
    rw [clockTickWith_of_current p hf h2 hc, executeTick_at_s5 p i h5] at h
    rw [stepWith_of_current p hf (by rw [hfetch, hc]), hfetch, ← h]
    by_cases hi : i.operation = .halt
    · cases i with
      | halt c => exact execHalt_past c (by rw [State.due, h5]; rfl)
      | _ => cases hi
    · rw [execWith_eq_complete p hi, executeWrites_at_s5 p i h5]
  | error e =>
    have hn : invalidOpcodeFault p s = none := invalidOpcodeFault_eq_none p (by rw [h5]; decide)
    rw [clockTickWith_of_invalid hf h2 hc hn, State.endTick_off_at_s5 h5] at h
    rw [stepWith_of_invalid p hf (by rw [hfetch, hc]), hfetch, invalidOpcodeWith_of_none hn, h]

/-- A tick that faults is that of an invalid opcode at step 2, and so the step faults. -/
theorem stepWith_of_clockTick_fault {p : Config.Params} {s : State} {f : Fault} (hf : s.finished = false)
    (h : tickFault p s = some f) : stepWith p s = .fault f := by
  have hs : s.stepCounter = .s2 := by
    by_contra hne
    rw [tickFault_eq_none hne] at h
    cases h
  have hfetch := State.fetch_of_execute (s := s) (by rw [hs]; decide)
  cases hc : s.current with
  | ok i =>
    rw [tickFault_of_decode hc] at h
    cases h
  | error e =>
    rw [tickFault_of_invalid p hc] at h
    rw [stepWith_of_invalid p hf (by rw [hfetch, hc]), hfetch, invalidOpcodeWith_of_fault h]

/-! ### All ticks of a step -/

theorem runTicksWith_succ_of_next {p : Config.Params} {s t : State} (h : clockTickWith p s = .next t) (n : Nat) :
    runTicksWith p (n + 1) s = runTicksWith p n t := by
  simp [runTicksWith, h]

theorem runTicksWith_succ_of_fault {p : Config.Params} {s : State} {f : Fault} (h : clockTickWith p s = .fault f)
    (n : Nat) : runTicksWith p (n + 1) s = .fault f := by
  simp [runTicksWith, h]

theorem runTicksWith_of_finished (p : Config.Params) {s : State} (hf : s.finished = true) (n : Nat) :
    runTicksWith p n s = .next s := by
  induction n with
  | zero => rfl
  | succ n ih => rw [runTicksWith_succ_of_next (clockTickWith_of_finished p hf), ih]

/-- A tick of an unfinished machine faults, or advances the step counter (40_sequencer.md R115). -/
theorem clockTickWith_unfinished_cases (p : Config.Params) {s : State} (hf : s.finished = false) :
    (∃ f, tickFault p s = some f ∧ clockTickWith p s = .fault f) ∨
    ∃ t, clockTickWith p s = .next t ∧ t.stepCounter = s.stepCounter.next := by
  rcases clockTickWith_cases p s with ⟨h, -⟩ | ⟨-, h⟩ | ⟨-, -, h⟩
  · rw [hf] at h
    cases h
  · exact .inl h
  · exact .inr ⟨_, h, rfl⟩

/-- The step of an unfinished machine is the ticks up to the boundary, however many these are. -/
theorem stepWith_eq_runTicksWith (p : Config.Params) (n : Nat) {s : State} (hf : s.finished = false)
    (hn : s.stepCounter.toNat + n = 5) : stepWith p s = runTicksWith p (n + 1) s := by
  induction n generalizing s with
  | zero =>
    have h5 : s.stepCounter = .s5 := by
      cases hs : s.stepCounter <;> simp_all [MicroStep.toNat]
    rcases clockTickWith_unfinished_cases p hf with ⟨f, hfault, e⟩ | ⟨t, e, -⟩
    · rw [runTicksWith_succ_of_fault e, stepWith_of_clockTick_fault hf hfault]
    · rw [runTicksWith_succ_of_next e, runTicksWith, stepWith_of_clockTick_at_s5 hf h5 e]
  | succ n ih =>
    have h5 : s.stepCounter ≠ .s5 := fun e => by simp [e, MicroStep.toNat] at hn
    rcases clockTickWith_unfinished_cases p hf with ⟨f, hfault, e⟩ | ⟨t, e, hst⟩
    · rw [runTicksWith_succ_of_fault e, stepWith_of_clockTick_fault hf hfault]
    · rw [runTicksWith_succ_of_next e, ← stepWith_of_clockTick hf h5 e]
      have htn : t.stepCounter.toNat + n = 5 := by
        rw [hst, MicroStep.next_toNat]
        omega
      cases ht : t.finished with
      | true => rw [stepWith_of_finished p ht, runTicksWith_of_finished p ht]
      | false => exact ih ht htn

end Sys2Proof.Machine

namespace Sys2Proof.Proofs
open Sys2Proof Sys2Proof.Machine

/-- Settles O24: each tick leaves the step that is to come as it is, and the last is what is left of it. -/
theorem stepIsItsTicks : Obligations.StepIsItsTicks := by
  intro p s
  cases hf : s.finished with
  | true => rw [stepWith_of_finished p hf, runTicksWith_of_finished p hf]
  | false =>
    have hlt := s.stepCounter.toNat_lt
    have hn : s.stepCounter.ticksToBoundary = (5 - s.stepCounter.toNat) + 1 := by
      unfold MicroStep.ticksToBoundary
      omega
    rw [hn]
    exact stepWith_eq_runTicksWith p _ hf (by omega)

end Sys2Proof.Proofs
end

section
/-! PROOFS. The invariants of the memories, what no step and no tick writes, and where a step ends (20_memory.md R61 to
R66; 40_sequencer.md R108, R112, R116). -/

namespace Sys2Proof.Machine

/-! ### The memories after a tick -/

/-- A tick writes no ROM, and RAM and the IO array by a RAM write if at all (40_sequencer.md R109). -/
theorem clockTickWith_memories {p : Config.Params} {s t : State} (h : clockTickWith p s = .next t) :
    t.rom = s.rom ∧
    ((t.ram = s.ram ∧ t.io = s.io) ∨
      ∃ a v, t.ram = (s.memWriteWith p a v).ram ∧ t.io = (s.memWriteWith p a v).io) := by
  cases hf : s.finished with
  | true =>
    rw [clockTickWith_of_finished p hf] at h
    cases h
    exact ⟨rfl, .inl ⟨rfl, rfl⟩⟩
  | false =>
    obtain ⟨-, rfl⟩ := clockTickWith_next hf h
    obtain ⟨hrom, ⟨hram, hio, -⟩ | ⟨v, hram, hio, -⟩⟩ :=
      applyLines_memories p (microcode s.stepCounter s.ir s.overflow) s
    · exact ⟨hrom, .inl ⟨hram, hio⟩⟩
    · exact ⟨hrom, .inr ⟨s.ramAddr, v, hram, hio⟩⟩

/-! ### Memories in canonical form and inside their spaces -/

/-- A RAM write keeps the three memories well formed: both its addresses are inside their spaces. -/
theorem State.memoriesWf_memWriteWith (p : Config.Params) {s : State} (h : s.memoriesWf) (a v : Byte) :
    (s.memWriteWith p a v).memoriesWf := by
  obtain ⟨hrom, ⟨hram, hramBound⟩, hio, hioBound⟩ := h
  refine ⟨by rwa [State.memWriteWith_rom], ?_, ?_⟩
  · rw [State.memWriteWith_ram]
    exact ⟨Memory.wf_write hram _ _, Memory.within_write hramBound a.isLt v⟩
  · rcases s.memWriteWith_mirror p a v with ⟨j, -, e, -⟩ | ⟨-, e, -⟩ <;> rw [e]
    · exact ⟨Memory.wf_write hio _ _, Memory.within_write hioBound j.isLt v⟩
    · exact ⟨hio, hioBound⟩

theorem memoriesWf_keptByExecute (p : Config.Params) : KeptByExecute p State.memoriesWf where
  ramAddr := fun _ _ h => h
  reg := fun _ _ _ h => by simpa only [State.memoriesWf, State.setReg_rom, State.setReg_ram, State.setReg_io] using h
  memWrite := fun _ a v h => State.memoriesWf_memWriteWith p h a v
  alu := fun _ _ h => h
  pc := fun _ _ h => h
  dec := fun _ _ h => h
  complete := fun _ h => h
  stop := fun _ h => h

theorem memoriesWf_keptByFetch : KeptByFetch State.memoriesWf where
  fetchAddress := fun _ h => h
  fetchUpper := fun _ h => h

theorem clockTickWith_memoriesWf {p : Config.Params} {s t : State} (hs : s.memoriesWf)
    (h : clockTickWith p s = .next t) : t.memoriesWf := by
  obtain ⟨hrom, ⟨hram, hio⟩ | ⟨a, v, hram, hio⟩⟩ := clockTickWith_memories h
  · unfold State.memoriesWf
    rwa [hrom, hram, hio]
  · have hw := State.memoriesWf_memWriteWith p hs a v
    unfold State.memoriesWf at hw ⊢
    rwa [State.memWriteWith_rom, ← hrom, ← hram, ← hio] at hw

/-! ### The IO array and the RAM window -/

/-- A RAM write keeps the mirror: it is mirrored exactly where it hits the window. -/
theorem State.ioMirrors_memWriteWith (p : Config.Params) {s : State} (h : s.ioMirrors p) (a v : Byte) :
    (s.memWriteWith p a v).ioMirrors p := by
  intro hm k
  have hk := h hm k
  rw [State.memWriteWith_ram]
  rcases s.memWriteWith_mirror p a v with ⟨j, hj, e, -⟩ | ⟨hnone, e, -⟩
  · obtain ⟨-, ha⟩ := (ioIndex_eq_some_iff p a j).mp hj
    rw [e, Memory.read_write, Memory.read_write, hk, ha]
    simp only [Nat.add_left_cancel_iff]
  · have hne : p.ioBase.val + k.toNat ≠ a.toNat := fun ha => by
      rw [(ioIndex_eq_some_iff p a k).mpr ⟨hm, ha.symm⟩] at hnone
      cases hnone
    rw [e, Memory.read_write_other _ hne, hk]

theorem ioMirrors_keptByExecute (p : Config.Params) : KeptByExecute p (State.ioMirrors p) where
  ramAddr := fun _ _ h => h
  reg := fun _ _ _ h => by simpa only [State.ioMirrors, State.setReg_ram, State.setReg_io] using h
  memWrite := fun _ a v h => State.ioMirrors_memWriteWith p h a v
  alu := fun _ _ h => h
  pc := fun _ _ h => h
  dec := fun _ _ h => h
  complete := fun _ h => h
  stop := fun _ h => h

theorem ioMirrors_keptByFetch (p : Config.Params) : KeptByFetch (State.ioMirrors p) where
  fetchAddress := fun _ h => h
  fetchUpper := fun _ h => h

theorem clockTickWith_ioMirrors {p : Config.Params} {s t : State} (hs : s.ioMirrors p)
    (h : clockTickWith p s = .next t) : t.ioMirrors p := by
  unfold State.ioMirrors
  obtain ⟨-, ⟨hram, hio⟩ | ⟨a, v, hram, hio⟩⟩ := clockTickWith_memories h <;> rw [hram, hio]
  · exact hs
  · exact State.ioMirrors_memWriteWith p hs a v

/-! ### ROM -/

theorem romIs_keptByExecute (p : Config.Params) (rom : Memory) : KeptByExecute p fun t => t.rom = rom where
  ramAddr := fun _ _ h => h
  reg := fun t r v h => (t.setReg_rom r v).trans h
  memWrite := fun t a v h => (t.memWriteWith_rom p a v).trans h
  alu := fun _ _ h => h
  pc := fun _ _ h => h
  dec := fun _ _ h => h
  complete := fun _ h => h
  stop := fun _ h => h

theorem romIs_keptByFetch (rom : Memory) : KeptByFetch fun t => t.rom = rom where
  fetchAddress := fun _ h => h
  fetchUpper := fun _ h => h

/-! ### Where a step ends -/

theorem executeWrites_finished (p : Config.Params) {i : Instr} (hi : i.operation ≠ .halt) (s : State) :
    (executeWrites p i s).finished = s.finished := by
  unfold executeWrites
  rw [State.onStep_keeps State.finished _ _ _ _ (stepFourWrite_finished i),
    State.onStep_keeps State.finished _ _ _ _ (stepThreeWrite_finished p i · hi)]
  split
  · exact stepTwoWrite_finished i s
  · rfl

/-- The execute phase ends at the next boundary, or with the machine stopped by a halt. -/
theorem execWith_ends (p : Config.Params) (i : Instr) (s : State) :
    (∃ t : State, execWith p i s = .next t.complete ∧ t.finished = s.finished) ∨ execWith p i s = .next s.stop := by
  by_cases hi : i.operation = .halt
  · cases i with
    | halt c =>
      simp only [execWith, execHalt]
      split
      · exact .inr rfl
      · exact .inl ⟨s, rfl, rfl⟩
    | _ => cases hi
  · exact .inl ⟨_, execWith_eq_complete p hi s, executeWrites_finished p hi s⟩

/-- A step of an unfinished machine ends at the next boundary, or frozen by a halt. -/
theorem stepWith_ends {p : Config.Params} {s t : State} (hf : s.finished = false) (h : stepWith p s = .next t) :
    (t.finished = false ∧ t.stepCounter = .s0) ∨
    (t.finished = true ∧ t.stepCounter = .s4 ∧ t.lines = Lines.halting) := by
  have hff : s.fetch.finished = false := s.fetch_frame.1.trans hf
  cases hc : s.fetch.current with
  | ok i =>
    rw [stepWith_of_current p hf hc] at h
    rcases execWith_ends p i s.fetch with ⟨u, e, hu⟩ | e <;> rw [e] at h <;> cases h
    · exact .inl ⟨hu.trans hff, rfl⟩
    · exact .inr ⟨rfl, rfl, rfl⟩
  | error e =>
    rw [stepWith_of_invalid p hf hc] at h
    cases hn : invalidOpcodeFault p s.fetch with
    | some f =>
      rw [invalidOpcodeWith_of_fault hn] at h
      cases h
    | none =>
      rw [invalidOpcodeWith_of_none hn] at h
      cases h
      exact .inl ⟨hff, rfl⟩

/-! ### The core's step -/

/-- The core's step is the step under its parameters. -/
theorem step_eq_stepWith (s : State) : step s = stepWith params s := by
  unfold step stepWith
  simp only [execWith_params]

/-- Under the policy `inert` every state has a next one. -/
theorem stepWith_total {p : Config.Params} (hp : p.invalidOpcode = .inert) (s : State) :
    ∃ t, stepWith p s = .next t := by
  cases hf : s.finished with
  | true => exact ⟨s, stepWith_of_finished p hf⟩
  | false =>
    cases hc : s.fetch.current with
    | ok i =>
      rw [stepWith_of_current p hf hc]
      rcases execWith_ends p i s.fetch with ⟨u, e, -⟩ | e <;> exact ⟨_, e⟩
    | error e =>
      have hn : invalidOpcodeFault p s.fetch = none := by simp [invalidOpcodeFault, hp]
      exact ⟨_, (stepWith_of_invalid p hf hc).trans (invalidOpcodeWith_of_none hn)⟩

end Sys2Proof.Machine

namespace Sys2Proof.Proofs
open Sys2Proof Sys2Proof.Machine

/-- Settles O39: of the writes only that of RAM touches a memory, and it keeps them well formed. -/
theorem memoriesStayWellFormed : Obligations.MemoriesStayWellFormed :=
  fun p _ _ hs => ⟨(memoriesWf_keptByExecute p).stepWith memoriesWf_keptByFetch hs, clockTickWith_memoriesWf hs⟩

/-- Settles O40: of the writes only that of RAM touches RAM or the IO array, and it is mirrored. -/
theorem ioArrayMirrorsRamWindow : Obligations.IoArrayMirrorsRamWindow :=
  fun p _ _ hs => ⟨(ioMirrors_keptByExecute p).stepWith (ioMirrors_keptByFetch p) hs, clockTickWith_ioMirrors hs⟩

/-- Settles O42: no write of an execute phase, no half of the fetch and no line touches ROM. -/
theorem romNeverChanges : Obligations.RomNeverChanges :=
  fun p s _ => ⟨(romIs_keptByExecute p s.rom).stepWith (romIs_keptByFetch s.rom) rfl,
    fun h => (clockTickWith_memories h).1⟩

/-- Settles O41, from where a step ends; a finished machine does not move. -/
theorem stepsEndAtBoundariesOrFrozen : Obligations.StepsEndAtBoundariesOrFrozen := by
  intro p s t hs h
  cases hf : s.finished with
  | true =>
    rw [stepWith_of_finished p hf] at h
    cases h
    exact ⟨hs, .inl hf⟩
  | false =>
    rcases stepWith_ends hf h with ⟨ht, hst⟩ | ⟨ht, hst, hlines⟩
    · exact ⟨fun e => by simp [ht] at e, .inr hst⟩
    · exact ⟨fun _ => ⟨hst, hlines⟩, .inl ht⟩

/-- Settles O38: the reset state's memories list nothing, and it is an unfinished machine at step 0. -/
theorem resetMeetsTheInvariants : Obligations.ResetMeetsTheInvariants :=
  ⟨⟨⟨Memory.wf_empty, Memory.within_empty _⟩, ⟨Memory.wf_empty, Memory.within_empty _⟩,
      Memory.wf_empty, Memory.within_empty _⟩,
    fun _ _ _ => rfl, fun h => (Bool.false_ne_true h).elim, .inr rfl⟩

/-- Settles O25: the values of the parameters, and that `exec` and `step` are the parametrised ones at them. -/
theorem stepUsesDefaultParameters : Obligations.StepUsesDefaultParameters :=
  ⟨rfl, rfl, rfl, step_eq_stepWith⟩

/-- Settles O26: every instruction answers a next state, and under the core's policy an invalid opcode does. -/
theorem noStepFaults : Obligations.NoStepFaults := by
  intro s
  rw [step_eq_stepWith]
  exact stepWith_total rfl s

end Sys2Proof.Proofs
end

section
/-! PROOFS. The line sets of the microcode table, and the ticks of each step (40_sequencer.md sections 2 and 3). -/

namespace Sys2Proof.Machine

/-! ### The line sets of the table -/

/-- Every line set of the table is that of one row (40_sequencer.md R102). -/
theorem microcode_cases (st : MicroStep) (ir : Byte) (ov : Bool) :
    microcode st ir ov = Lines.off ∨
    (st = .s0 ∧ microcode st ir ov = Lines.fetchAddress) ∨
    (st = .s1 ∧ microcode st ir ov = Lines.fetchUpper) ∨
    ∃ i, (st = .s2 ∧ microcode st ir ov = stepTwoLines i) ∨
      (st = .s3 ∧ microcode st ir ov = stepThreeLines i) ∨
      (st = .s4 ∧ microcode st ir ov = stepFourLines i) := by
  cases st with
  | s0 => exact .inr (.inl ⟨rfl, microcode_s0 ir ov⟩)
  | s1 => exact .inr (.inr (.inl ⟨rfl, microcode_s1 ir ov⟩))
  | s5 => exact .inl (microcode_s5 ir ov)
  | s2 | s3 | s4 =>
    cases hd : decode ir 0#8 with
    | error e => exact .inl (microcode_of_invalid hd _ ov)
    | ok i =>
      rw [microcode_of_decode hd]
      cases hg : gate i.condition ov <;> simp [instrLines]

/-- The bus discipline of one line set (the spec's inference 40_sequencer.md R110). -/
abbrev Lines.KeepsBusDiscipline (ls : Lines) : Prop :=
  (ls.asserted.filter Line.isOutputLine).length ≤ 1 ∧
  (ls.asserted.filter Line.isOutputLine = [] → ls.asserted.filter Line.isInputLine = []) ∧
  ¬ (ls.pcIn = true ∧ ls.pcIncrement = true) ∧
  ls.line24 = false

theorem off_keepsBusDiscipline : Lines.off.KeepsBusDiscipline := by decide

theorem stepTwoLines_keepsBusDiscipline (i : Instr) : (stepTwoLines i).KeepsBusDiscipline := by
  have hfetch : Lines.fetchRamAddress.KeepsBusDiscipline := by decide
  cases i with
  | store r c a | load r c a | add c a | sub c a | jump c a => exact hfetch
  | _ => exact off_keepsBusDiscipline

/-- Each row of step 3 has one output line and one input line, but for `noOp` and `halt`, which have neither. -/
theorem stepThreeLines_keepsBusDiscipline (i : Instr) : (stepThreeLines i).KeepsBusDiscipline := by
  have hram (r : Reg) : (Lines.ramOut.withRegIn r).KeepsBusDiscipline := by cases r <;> decide
  have hpayload (r : Reg) : (Lines.payloadOut.withRegIn r).KeepsBusDiscipline := by cases r <;> decide
  cases i with
  | noOp c => exact off_keepsBusDiscipline
  | store r c a =>
    suffices h : { Lines.off.withRegOut r with ramValueIn := true }.KeepsBusDiscipline from h
    cases r <;> decide
  | load r c a => exact hram r
  | loadImmediate r c v => exact hpayload r
  | add c a | sub c a => exact hram .r2
  | addImmediate c v | subImmediate c v => exact hpayload .r2
  | jump c a =>
    suffices h : { Lines.ramOut with pcIn := true }.KeepsBusDiscipline from h
    decide
  | jumpImmediate c t =>
    suffices h : { Lines.payloadOut with pcIn := true }.KeepsBusDiscipline from h
    decide
  | out r c =>
    suffices h : { Lines.off.withRegOut r with decimalOutputIn := true }.KeepsBusDiscipline from h
    cases r <;> decide
  | halt c =>
    suffices h : Lines.halting.KeepsBusDiscipline from h
    decide

theorem stepFourLines_keepsBusDiscipline (i : Instr) : (stepFourLines i).KeepsBusDiscipline := by
  have hlatch (neg : Bool) : (Lines.aluLatch neg).KeepsBusDiscipline := by cases neg <;> decide
  cases i with
  | add c a | addImmediate c v => exact hlatch false
  | sub c a | subImmediate c v => exact hlatch true
  | _ => exact off_keepsBusDiscipline

theorem stepTwoLines_halt (i : Instr) : (stepTwoLines i).halt = false := by cases i <;> rfl
theorem stepFourLines_halt (i : Instr) : (stepFourLines i).halt = false := by cases i <;> rfl
theorem stepTwoLines_aluSetFlags (i : Instr) : (stepTwoLines i).aluSetFlags = false := by cases i <;> rfl

theorem stepThreeLines_aluSetFlags (i : Instr) : (stepThreeLines i).aluSetFlags = false := by
  cases i <;> simp [stepThreeLines] <;> rfl

/-- Only step 3 asserts `halt` (40_sequencer.md R112). -/
theorem microcode_halt {st : MicroStep} (h : st ≠ .s3) (ir : Byte) (ov : Bool) : (microcode st ir ov).halt = false := by
  rcases microcode_cases st ir ov with e | ⟨-, e⟩ | ⟨-, e⟩ | ⟨i, ⟨-, e⟩ | ⟨hst, -⟩ | ⟨-, e⟩⟩
  · rw [e]; rfl
  · rw [e]; rfl
  · rw [e]; rfl
  · rw [e, stepTwoLines_halt]
  · exact absurd hst h
  · rw [e, stepFourLines_halt]

/-- Only step 4 asserts `aluSetFlags` (40_sequencer.md R107). -/
theorem microcode_aluSetFlags {st : MicroStep} (h : st ≠ .s4) (ir : Byte) (ov : Bool) :
    (microcode st ir ov).aluSetFlags = false := by
  rcases microcode_cases st ir ov with e | ⟨-, e⟩ | ⟨-, e⟩ | ⟨i, ⟨-, e⟩ | ⟨-, e⟩ | ⟨hst, -⟩⟩
  · rw [e]; rfl
  · rw [e]; rfl
  · rw [e]; rfl
  · rw [e, stepTwoLines_aluSetFlags]
  · rw [e, stepThreeLines_aluSetFlags]
  · exact absurd hst h

/-! ### Ticks of an unfinished machine -/

/-- The lines that a tick stores are those it asserted. -/
theorem clockTickWith_lines {p : Config.Params} {s t : State} (hf : s.finished = false)
    (h : clockTickWith p s = .next t) : t.lines = microcode s.stepCounter s.ir s.overflow := by
  obtain ⟨-, rfl⟩ := clockTickWith_next hf h
  rfl

theorem clockTickWith_stepCounter {p : Config.Params} {s t : State} (hf : s.finished = false)
    (h : clockTickWith p s = .next t) : t.stepCounter = s.stepCounter.next := by
  obtain ⟨-, rfl⟩ := clockTickWith_next hf h
  rfl

/-- Only the tick of step 3 can finish the machine. -/
theorem clockTickWith_finished {p : Config.Params} {s t : State} (hf : s.finished = false) (h3 : s.stepCounter ≠ .s3)
    (h : clockTickWith p s = .next t) : t.finished = false := by
  obtain ⟨-, rfl⟩ := clockTickWith_next hf h
  simp [microcode_halt h3, hf]

theorem runTicksWith_succ_next {p : Config.Params} {n : Nat} {s t : State} (h : runTicksWith p (n + 1) s = .next t) :
    ∃ u, clockTickWith p s = .next u ∧ runTicksWith p n u = .next t := by
  rw [runTicksWith] at h
  split at h
  · next u hu => exact ⟨u, hu, h⟩
  all_goals cases h

/-- The first tick of a run, at any step but 3, leaves the machine unfinished and one step on. -/
theorem runTicksWith_unfinished_tick {p : Config.Params} {n : Nat} {s t : State} {st : MicroStep}
    (hf : s.finished = false) (hs : s.stepCounter = st) (h3 : st ≠ .s3) (h : runTicksWith p (n + 1) s = .next t) :
    ∃ u, clockTickWith p s = .next u ∧ u.finished = false ∧ u.stepCounter = st.next ∧ runTicksWith p n u = .next t := by
  obtain ⟨u, hu, ht⟩ := runTicksWith_succ_next h
  exact ⟨u, hu, clockTickWith_finished hf (hs ▸ h3) hu, hs ▸ clockTickWith_stepCounter hf hu, ht⟩

/-! ### The rows of step 2, by operation -/

theorem stepTwoLines_eq (i : Instr) :
    stepTwoLines i =
      if i.operation ∈ [Operation.store, .load, .add, .sub, .jump] then Lines.fetchRamAddress else Lines.off := by
  cases i <;> rfl

theorem stepTwoWrite_eq (i : Instr) (s : State) :
    stepTwoWrite i s =
      if i.operation ∈ [Operation.store, .load, .add, .sub, .jump] then { s with ramAddr := i.payload } else s := by
  cases i <;> rfl

/-- The payload is the byte of bank 1 (30_encoding.md R87). -/
theorem State.payload_eq (s : State) : s.payload = s.rom.read (256 + s.romAddr.toNat) := by
  rw [State.payload, State.romRead, romAddress_toNat, if_pos rfl]

theorem gate_eq_false {c : Cond} {ov : Bool} (hc : c = .aluOverflow) (ho : ov = false) : gate c ov = false := by
  subst hc ho
  rfl

/-- A gated-off tick of step 3 or 4 (40_sequencer.md R106). -/
theorem executeTick_gated (p : Config.Params) {i : Instr} {s : State} (hs : s.stepCounter = .s3 ∨ s.stepCounter = .s4)
    (hg : gate i.condition s.overflow = false) : executeTick p i s = s.endTick Lines.off := by
  rcases hs with hs | hs
  · rw [executeTick_at_s3 p i hs, State.onStep_gated hg, hg]
    rfl
  · rw [executeTick_at_s4 p i hs, State.onStep_gated hg, hg]
    rfl

end Sys2Proof.Machine

namespace Sys2Proof.Proofs
open Sys2Proof Sys2Proof.Machine

/-- Settles O36: the discipline of each row, for every row a line set can be. -/
theorem tableKeepsBusDiscipline : Obligations.TableKeepsBusDiscipline := by
  intro st ir ov
  suffices h : (microcode st ir ov).KeepsBusDiscipline from h
  rcases microcode_cases st ir ov with e | ⟨-, e⟩ | ⟨-, e⟩ | ⟨i, ⟨-, e⟩ | ⟨-, e⟩ | ⟨-, e⟩⟩ <;> rw [e]
  · exact off_keepsBusDiscipline
  · decide
  · decide
  · exact stepTwoLines_keepsBusDiscipline i
  · exact stepThreeLines_keepsBusDiscipline i
  · exact stepFourLines_keepsBusDiscipline i

/-- Settles O37: only the fourth tick can finish the machine, and then the two that follow change nothing. -/
theorem instructionTakesSixTicks : Obligations.InstructionTakesSixTicks := by
  intro p s t hf hs h
  obtain ⟨u₁, h₁, hf₁, hs₁, h⟩ := runTicksWith_unfinished_tick hf hs (by decide) h
  obtain ⟨u₂, h₂, hf₂, hs₂, h⟩ := runTicksWith_unfinished_tick hf₁ hs₁ (by decide) h
  obtain ⟨u₃, h₃, hf₃, hs₃, h⟩ := runTicksWith_unfinished_tick hf₂ hs₂ (by decide) h
  obtain ⟨u₄, h₄, h⟩ := runTicksWith_succ_next h
  have hs₄ : u₄.stepCounter = .s4 := by rw [clockTickWith_stepCounter hf₃ h₄, hs₃]; rfl
  have hthree (n : Nat) : runTicksWith p (n + 3) s = runTicksWith p n u₃ := by
    rw [runTicksWith_succ_of_next h₁, runTicksWith_succ_of_next h₂, runTicksWith_succ_of_next h₃]
  cases hf₄ : u₄.finished with
  | true =>
    rw [runTicksWith_of_finished p hf₄] at h
    cases h
    exact .inr ⟨hf₄, hs₄, (hthree 1).trans (runTicksWith_succ_of_next h₄ 0), u₃, hthree 0, hf₃⟩
  | false =>
    obtain ⟨u₅, -, hf₅, hs₅, h⟩ := runTicksWith_unfinished_tick hf₄ hs₄ (by decide) h
    obtain ⟨u₆, -, hf₆, hs₆, h⟩ := runTicksWith_unfinished_tick hf₅ hs₅ (by decide) h
    cases h
    exact .inl ⟨hf₆, hs₆⟩

/-- Settles O31: the tick is the first half of the fetch. -/
theorem tickZeroLatchesRomAddress : Obligations.TickZeroLatchesRomAddress := by
  intro p s hf hs
  refine ⟨s.fetchAddress, clockTickWith_at_s0 hf hs, ?_, ?_⟩
  · exact (by decide : Lines.fetchAddress.asserted = [.romAddressIn, .pcOut])
  · simp [State.fetchAddress, State.endTick, hs, MicroStep.next]

/-- Settles O32: the tick is the second half of the fetch. -/
theorem tickOneFetchesUpperByte : Obligations.TickOneFetchesUpperByte := by
  intro p s hf hs
  refine ⟨s.fetchUpper, clockTickWith_at_s1 hf hs, ?_, ?_, ?_⟩
  · exact (by decide : Lines.fetchUpper.asserted = [.romValueOut, .pcIncrement, .instructionRegisterIn])
  · exact BitVec.toNat_add s.pc 1#8
  · simp [State.fetchUpper, State.endTick, hs, MicroStep.next, State.romRead, romAddress_toNat]

/-- Settles O33, from the row of step 2 and its write. -/
theorem tickTwoLatchesRamAddress : Obligations.TickTwoLatchesRamAddress := by
  intro p s i hf hs hd
  refine ⟨_, clockTickWith_of_current p hf (by rw [hs]; decide) hd, ?_⟩
  rw [executeTick_at_s2 p i hs, stepTwoLines_eq, stepTwoWrite_eq]
  split
  · next hi =>
    have hp : i.payload = s.rom.read (256 + s.romAddr.toNat) := by
      rw [← s.payload_eq]
      refine payload_of_decode hd ?_
      cases hop : i.operation <;> simp_all [Operation.hasPayload]
    refine ⟨(by decide : Lines.fetchRamAddress.asserted = [.romValueOut, .romBankBit9, .ramAddressIn]), ?_⟩
    simp [hp, State.endTick, hs, MicroStep.next]
  · refine ⟨(by decide : Lines.off.asserted = []), ?_⟩
    simp [State.endTick, hs, MicroStep.next]

/-- Settles O34: with the gate closed the tick is the bare end of a tick. -/
theorem gatedStepsAreNoOps : Obligations.GatedStepsAreNoOps := by
  intro p s i hf hs hd hc ho
  have h2 : 2 ≤ s.stepCounter.toNat := by rcases hs with hs | hs <;> rw [hs] <;> decide
  refine ⟨s.endTick Lines.off, ?_, (by decide : Lines.off.asserted = []), rfl⟩
  rw [clockTickWith_of_current p hf h2 hd, executeTick_gated p hs (gate_eq_false hc ho)]

/-- Settles O35: no tick but that of step 4 asserts `aluSetFlags`. -/
theorem overflowChangesOnlyAtStepFour : Obligations.OverflowChangesOnlyAtStepFour := by
  intro p s t h4 h
  rw [clockTickWith_overflow h, if_neg]
  rintro ⟨hf, hset⟩
  rw [clockTickWith_lines hf h, microcode_aluSetFlags h4] at hset
  cases hset

end Sys2Proof.Proofs
end

section
/-! PROOFS. The execute phase of each instruction from step 2: its result and its frame (41_transfer.md, 42_alu.md
section 2, 43_control_output.md). -/

namespace Sys2Proof.Machine

/-! ### The execute phase from step 2, with the gate open and with it closed (40_sequencer.md R105, R106) -/

theorem gate_eq_true_iff (c : Cond) (s : State) : gate c s.overflow = true ↔ s.applies c := by
  cases c <;> simp [gate, State.applies]

theorem gate_eq_false_iff (c : Cond) (s : State) : gate c s.overflow = false ↔ ¬ s.applies c := by
  rw [← gate_eq_true_iff, Bool.not_eq_true]

/-- The writes of all three steps, with the gate open. -/
def takenWrites (i : Instr) (s : State) : State :=
  stepFourWrite i (stepThreeWrite params i (stepTwoWrite i s))

section
variable {i : Instr} {s : State} (hs : s.stepCounter = .s2)
include hs

/-- With the gate open, every instruction but `halt` makes the writes of its three steps. -/
theorem exec_taken (hi : i.operation ≠ .halt) (hc : s.applies i.condition) :
    exec i s = .next (takenWrites i s).complete := by
  have hg : gate i.condition s.overflow = true := (gate_eq_true_iff _ s).mpr hc
  have hthree : (stepTwoWrite i s).onStep .s3 i.condition (stepThreeWrite params i) =
      stepThreeWrite params i (stepTwoWrite i s) :=
    State.onStep_taken (by simp [State.due, hs]; decide) (by simpa using hg) _
  rw [← execWith_params, execWith_eq_complete params hi, executeWrites_at_s2 params i hs, hthree,
    State.onStep_taken (by simp [State.due, hs]; decide) (by simpa using hg), takenWrites]

/-- With the gate closed, every instruction makes the write of its step 2 alone. -/
theorem exec_gated (hc : ¬ s.applies i.condition) : exec i s = .next (stepTwoWrite i s).complete := by
  have hg : gate i.condition s.overflow = false := (gate_eq_false_iff _ s).mpr hc
  by_cases hi : i.operation = .halt
  · cases i with
    | halt c => exact execHalt_gated hg
    | _ => cases hi
  · have hg2 : gate i.condition (stepTwoWrite i s).overflow = false := by simpa using hg
    rw [← execWith_params, execWith_eq_complete params hi, executeWrites_at_s2 params i hs, State.onStep_gated hg2,
      State.onStep_gated hg2]

theorem exec_halt_taken {c : Cond} (hc : s.applies c) : exec (.halt c) s = .next s.stop :=
  execHalt_taken c (by simp [State.due, hs]; decide) ((gate_eq_true_iff c s).mpr hc)

end

/-! ### What all instructions leave alone -/

theorem sameRegs_of_eq {s t : State} (h1 : t.r1 = s.r1) (h2 : t.r2 = s.r2) (h3 : t.r3 = s.r3) (h4 : t.r4 = s.r4) :
    sameRegs s t
  | .r1 => h1
  | .r2 => h2
  | .r3 => h3
  | .r4 => h4

/-- The memories, the fetch registers and `finished` are the same. -/
structure SameMemoriesAndFetch (s u : State) : Prop where
  ram : u.ram = s.ram
  io : u.io = s.io
  ioAddr : u.ioAddr = s.ioAddr
  rom : u.rom = s.rom
  finished : u.finished = s.finished
  ir : u.ir = s.ir
  romAddr : u.romAddr = s.romAddr

theorem SameMemoriesAndFetch.memories {s u : State} (h : SameMemoriesAndFetch s u) :
    sameRam s u ∧ sameIo s u ∧ sameRom s u := by
  refine ⟨fun x => ?_, ⟨fun j => by rw [h.io], h.ioAddr⟩, fun x => ?_⟩
  · rw [State.memRead, State.memRead, h.ram]
  · rw [State.romRead, State.romRead, h.rom]

theorem endsInstruction_complete {s u : State} (hf : u.finished = s.finished) (hir : u.ir = s.ir)
    (hr : u.romAddr = s.romAddr) : endsInstruction s u.complete :=
  ⟨rfl, rfl, hf, hir, hr⟩

/-- The common end of the frames of the instructions. -/
theorem SameMemoriesAndFetch.complete {s u : State} (h : SameMemoriesAndFetch s u) :
    sameRam s u.complete ∧ sameIo s u.complete ∧ sameRom s u.complete ∧ endsInstruction s u.complete :=
  ⟨h.memories.1, h.memories.2.1, h.memories.2.2, endsInstruction_complete h.finished h.ir h.romAddr⟩

theorem sameMemoriesAndFetch_stepTwoWrite (i : Instr) (s : State) : SameMemoriesAndFetch s (stepTwoWrite i s) := by
  cases i <;> exact ⟨rfl, rfl, rfl, rfl, rfl, rfl, rfl⟩

theorem sameRegs_stepTwoWrite (i : Instr) (s : State) : sameRegs s (stepTwoWrite i s) := by
  cases i <;> exact sameRegs_of_eq rfl rfl rfl rfl

/-- Only a store writes a memory, and only a halt sets `finished`. -/
theorem sameMemoriesAndFetch_takenWrites {i : Instr} (hstore : i.operation ≠ .store) (hhalt : i.operation ≠ .halt)
    (s : State) : SameMemoriesAndFetch s (takenWrites i s) := by
  cases i with
  | store r c a => exact absurd rfl hstore
  | halt c => exact absurd rfl hhalt
  | load r c a | loadImmediate r c v => cases r <;> exact ⟨rfl, rfl, rfl, rfl, rfl, rfl, rfl⟩
  | _ => exact ⟨rfl, rfl, rfl, rfl, rfl, rfl, rfl⟩

/-- Only the ALU operations write the flags (70_reset_and_hazards.md R227). -/
theorem sameFlags_takenWrites {i : Instr} (hi : i.operation ∉ [Operation.add, .addImmediate, .sub, .subImmediate])
    (s : State) : sameFlags s (takenWrites i s) := by
  have hthree : sameFlags s (stepThreeWrite params i (stepTwoWrite i s)) := by
    cases i <;> simp [sameFlags, stepThreeWrite, stepTwoWrite]
  cases i with
  | add c a | addImmediate c v | sub c a | subImmediate c v => simp [Instr.operation] at hi
  | _ => exact hthree

/-- Only the jumps write the program counter (43_control_output.md R174). -/
theorem takenWrites_pc {i : Instr} (hi : i.operation ∉ [Operation.jump, .jumpImmediate]) (s : State) :
    (takenWrites i s).pc = s.pc := by
  cases i with
  | jump c a | jumpImmediate c t => simp [Instr.operation] at hi
  | _ => simp [takenWrites, stepTwoWrite, stepThreeWrite, stepFourWrite]

/-! ### The results of the ALU operations -/

/-- The results of an addition (42_alu.md R150 to R152). -/
theorem alu_add_results (a b : Byte) :
    (aluValue a b false).toNat = (a.toNat + b.toNat) % 256 ∧
    (aluOverflow a b false = true ↔ a.toNat + b.toNat > 255) ∧
    (aluZero a b false = true ↔ aluValue a b false = 0#8) :=
  ⟨aluValue_add_toNat a b, aluOverflow_add_iff a b, by rw [aluZero, beq_iff_eq]⟩

/-- The results of a subtraction: the difference of two bytes is 0 modulo 256 only if they are equal. -/
theorem alu_sub_results (a b : Byte) :
    (aluValue a b true).toNat = (a.toNat + 256 - b.toNat) % 256 ∧
    (aluOverflow a b true = true ↔ a.toNat < b.toNat) ∧
    (aluZero a b true = true ↔ a = b) := by
  refine ⟨aluValue_sub_toNat a b, aluOverflow_sub_iff a b, ?_⟩
  have ha : a.toNat < 256 := a.isLt
  have hb : b.toNat < 256 := b.isLt
  rw [aluZero_iff, aluValue_sub_toNat, ← BitVec.toNat_inj]
  omega

/-! ### RAM writes and the window (20_memory.md R66) -/

/-- A write into the window is mirrored, to its offset and nowhere else. -/
theorem State.memWriteWith_inside {p : Config.Params} {a : Byte} (hm : p.mmioActive = true)
    (hlo : p.ioBase.val ≤ a.toNat) (hhi : a.toNat < p.ioBase.val + 128) (s : State) (v : Byte) :
    (s.memWriteWith p a v).ioAddr.toNat = a.toNat - p.ioBase.val ∧
    ∀ j : BitVec 7, (s.memWriteWith p a v).io.read j.toNat =
      if j.toNat = a.toNat - p.ioBase.val then v else s.io.read j.toNat := by
  rcases s.memWriteWith_mirror p a v with ⟨k, hk, hio, haddr⟩ | ⟨hnone, -⟩
  · obtain ⟨-, ha⟩ := (ioIndex_eq_some_iff p a k).mp hk
    have hoff : k.toNat = a.toNat - p.ioBase.val := by omega
    refine ⟨by rw [haddr, hoff], fun j => ?_⟩
    rw [hio, Memory.read_write, hoff]
  · have hsome := (ioIndex_eq_some_iff p a (BitVec.ofNat 7 (a.toNat - p.ioBase.val))).mpr
      ⟨hm, by rw [BitVec.toNat_ofNat, Nat.mod_eq_of_lt (by omega)]; omega⟩
    rw [hnone] at hsome
    cases hsome

/-- Any other write leaves the IO array and its address register alone. -/
theorem State.memWriteWith_outside {p : Config.Params} {a : Byte}
    (h : ¬ (p.mmioActive = true ∧ p.ioBase.val ≤ a.toNat ∧ a.toNat < p.ioBase.val + 128)) (s : State) (v : Byte) :
    (s.memWriteWith p a v).io = s.io ∧ (s.memWriteWith p a v).ioAddr = s.ioAddr := by
  rcases s.memWriteWith_mirror p a v with ⟨k, hk, -⟩ | ⟨-, hio, haddr⟩
  · obtain ⟨hm, ha⟩ := (ioIndex_eq_some_iff p a k).mp hk
    have hk : k.toNat < 128 := k.isLt
    exact absurd ⟨hm, by omega, by omega⟩ h
  · exact ⟨hio, haddr⟩

/-- The mirror under the core's parameters: the window is the addresses from 128 on. -/
theorem memWriteWith_params_mirror (s : State) (a v : Byte) :
    (128 ≤ a.toNat → (s.memWriteWith params a v).io.read (a.toNat - 128) = v ∧
      (s.memWriteWith params a v).ioAddr.toNat = a.toNat - 128) ∧
    (∀ j : BitVec 7, j.toNat + 128 ≠ a.toNat → (s.memWriteWith params a v).io.read j.toNat = s.io.read j.toNat) ∧
    (a.toNat < 128 → (s.memWriteWith params a v).ioAddr = s.ioAddr) := by
  have hbase : params.ioBase.val = 128 := rfl
  have ha : a.toNat < 256 := a.isLt
  by_cases h : 128 ≤ a.toNat
  · obtain ⟨haddr, hread⟩ := State.memWriteWith_inside (p := params) (a := a) rfl (by omega) (by omega) s v
    rw [hbase] at haddr
    refine ⟨fun _ => ⟨?_, haddr⟩, fun j hj => ?_, fun hlt => by omega⟩
    · rw [← haddr, hread, if_pos (by rw [haddr, hbase])]
    · rw [hread, if_neg (by omega)]
  · obtain ⟨hio, haddr⟩ := State.memWriteWith_outside (p := params) (a := a) (by omega) s v
    exact ⟨fun hge => absurd hge h, fun j _ => by rw [hio], fun _ => haddr⟩

end Sys2Proof.Machine

namespace Sys2Proof.Proofs
open Sys2Proof Sys2Proof.Machine

/-- Settles O10. -/
theorem aluWrapsModulo256 : Obligations.AluWrapsModulo256 :=
  fun a b => ⟨aluValue_add_toNat a b, aluOverflow_add a b, trunc8_toNat (aluRaw a b true), aluOverflow_sub a b⟩

/-- Settles O48: the write to RAM, and the mirror inside and outside the window. -/
theorem memWriteMirrorsExactlyTheWindow : Obligations.MemWriteMirrorsExactlyTheWindow := by
  intro p s a v
  refine ⟨State.memRead_memWriteWith p s a v, ?_⟩
  split
  · next h => exact State.memWriteWith_inside h.1 h.2.1 h.2.2 s v
  · next h => exact State.memWriteWith_outside h s v

/-- Settles O11: with the gate open as with it closed there is nothing to write. -/
theorem noOpHasNoEffect : Obligations.NoOpHasNoEffect :=
  fun c s _ => ⟨s.complete, rfl, sameRegs_of_eq rfl rfl rfl rfl, ⟨rfl, rfl⟩, rfl, rfl, rfl,
    (sameMemoriesAndFetch_stepTwoWrite (.noOp c) s).complete⟩

/-- Settles O12: what step 3 writes is the RAM write, mirrored for the addresses from 128 on. -/
theorem storeWritesRamAndMirrors : Obligations.StoreWritesRamAndMirrors := by
  intro r c a s hs
  by_cases hc : s.applies c
  · have hreg : { s with ramAddr := a }.reg r = s.reg r := sameRegs_stepTwoWrite (.store r c a) s r
    have hexec : exec (.store r c a) s = .next ({ s with ramAddr := a }.memWriteWith params a (s.reg r)).complete :=
      hreg ▸ exec_taken hs (i := .store r c a) nofun hc
    have hread := State.memRead_memWriteWith params { s with ramAddr := a } a (s.reg r)
    obtain ⟨hinside, hmirror, houtside⟩ := memWriteWith_params_mirror { s with ramAddr := a } a (s.reg r)
    refine ⟨_, hexec, by simp, fun _ => ?_, fun x hx => ?_, fun _ => hinside, fun j hj => ?_, fun h => ?_, fun q => ?_,
      ⟨by simp, by simp⟩, by simp, by simp, fun x => ?_,
      endsInstruction_complete (by simp) (by simp) (by simp)⟩
    · exact (hread a).trans (if_pos rfl)
    · exact (hread x).trans (if_neg (hx.resolve_right (not_not_intro hc)))
    · exact hmirror j (hj.resolve_right (not_not_intro hc))
    · exact houtside (h.resolve_right (not_not_intro hc))
    · rw [State.complete_reg, State.memWriteWith_reg]
      exact sameRegs_stepTwoWrite (.store r c a) s q
    · simp [State.romRead]
  · exact ⟨_, exec_gated hs (i := .store r c a) hc, rfl, fun h => absurd h hc, fun _ _ => rfl, fun h => absurd h hc,
      fun _ _ => rfl, fun _ => rfl, sameRegs_stepTwoWrite (.store r c a) s, ⟨rfl, rfl⟩, rfl, rfl, fun _ => rfl,
      endsInstruction_complete rfl rfl rfl⟩

/-- Settles O13: step 2 latches the address, and step 3 writes the register where the gate is open. -/
theorem loadReadsRam : Obligations.LoadReadsRam := by
  intro r c a s hs
  by_cases hc : s.applies c
  · refine ⟨({ s with ramAddr := a }.setReg r (s.memRead a)).complete, exec_taken hs (i := .load r c a) nofun hc,
      by simp, fun _ => by simp, fun q hq => ?_, ⟨by simp, by simp⟩, by simp, by simp,
      (sameMemoriesAndFetch_takenWrites (i := .load r c a) nofun nofun s).complete⟩
    exact State.reg_setReg_other _ (hq.resolve_right (not_not_intro hc)) _
  · exact ⟨_, exec_gated hs (i := .load r c a) hc, rfl, fun h => absurd h hc,
      fun q _ => sameRegs_stepTwoWrite (.load r c a) s q, ⟨rfl, rfl⟩, rfl, rfl,
      (sameMemoriesAndFetch_stepTwoWrite _ s).complete⟩

/-- Settles O14: step 3 writes the register where the gate is open. -/
theorem loadImmediateWritesPayload : Obligations.LoadImmediateWritesPayload := by
  intro r c v s hs
  by_cases hc : s.applies c
  · refine ⟨(s.setReg r v).complete, exec_taken hs (i := .loadImmediate r c v) nofun hc, fun _ => by simp,
      fun q hq => ?_, ⟨by simp, by simp⟩, by simp, by simp, by simp,
      (sameMemoriesAndFetch_takenWrites (i := .loadImmediate r c v) nofun nofun s).complete⟩
    exact State.reg_setReg_other _ (hq.resolve_right (not_not_intro hc)) _
  · exact ⟨_, exec_gated hs (i := .loadImmediate r c v) hc, fun h => absurd h hc,
      fun q _ => sameRegs_stepTwoWrite (.loadImmediate r c v) s q, ⟨rfl, rfl⟩, rfl, rfl, rfl,
      (sameMemoriesAndFetch_stepTwoWrite _ s).complete⟩

/-- Settles O15: operand B is the RAM byte, and the results are those of the addition. -/
theorem addAccumulatesRamByte : Obligations.AddAccumulatesRamByte := by
  intro c a s hs
  by_cases hc : s.applies c
  · exact ⟨_, exec_taken hs (i := .add c a) nofun hc, rfl, fun _ => ⟨rfl, alu_add_results s.r1 (s.memRead a)⟩,
      fun h => absurd hc h, rfl, rfl, rfl, rfl,
      (sameMemoriesAndFetch_takenWrites (i := .add c a) nofun nofun s).complete⟩
  · exact ⟨_, exec_gated hs (i := .add c a) hc, rfl, fun h => absurd h hc, fun _ => ⟨rfl, rfl, rfl, rfl⟩, rfl, rfl, rfl,
      rfl, (sameMemoriesAndFetch_stepTwoWrite _ s).complete⟩

/-- Settles O16: operand B is the payload, and the results are those of the addition. -/
theorem addImmediateAccumulatesPayload : Obligations.AddImmediateAccumulatesPayload := by
  intro c v s hs
  by_cases hc : s.applies c
  · exact ⟨_, exec_taken hs (i := .addImmediate c v) nofun hc, rfl, fun _ => ⟨rfl, alu_add_results s.r1 v⟩,
      fun h => absurd hc h, rfl, rfl, rfl, rfl,
      (sameMemoriesAndFetch_takenWrites (i := .addImmediate c v) nofun nofun s).complete⟩
  · exact ⟨_, exec_gated hs (i := .addImmediate c v) hc, rfl, fun h => absurd h hc, fun _ => ⟨rfl, rfl, rfl, rfl⟩, rfl,
      rfl, rfl, rfl, (sameMemoriesAndFetch_stepTwoWrite _ s).complete⟩

/-- Settles O17: operand B is the RAM byte, and the results are those of the subtraction. -/
theorem subSubtractsRamByte : Obligations.SubSubtractsRamByte := by
  intro c a s hs
  by_cases hc : s.applies c
  · exact ⟨_, exec_taken hs (i := .sub c a) nofun hc, rfl, fun _ => ⟨rfl, alu_sub_results s.r1 (s.memRead a)⟩,
      fun h => absurd hc h, rfl, rfl, rfl, rfl,
      (sameMemoriesAndFetch_takenWrites (i := .sub c a) nofun nofun s).complete⟩
  · exact ⟨_, exec_gated hs (i := .sub c a) hc, rfl, fun h => absurd h hc, fun _ => ⟨rfl, rfl, rfl, rfl⟩, rfl, rfl, rfl,
      rfl, (sameMemoriesAndFetch_stepTwoWrite _ s).complete⟩

/-- Settles O18: operand B is the payload, and the results are those of the subtraction. -/
theorem subImmediateSubtractsPayload : Obligations.SubImmediateSubtractsPayload := by
  intro c v s hs
  by_cases hc : s.applies c
  · exact ⟨_, exec_taken hs (i := .subImmediate c v) nofun hc, rfl, fun _ => ⟨rfl, alu_sub_results s.r1 v⟩,
      fun h => absurd hc h, rfl, rfl, rfl, rfl,
      (sameMemoriesAndFetch_takenWrites (i := .subImmediate c v) nofun nofun s).complete⟩
  · exact ⟨_, exec_gated hs (i := .subImmediate c v) hc, rfl, fun h => absurd h hc, fun _ => ⟨rfl, rfl, rfl, rfl⟩, rfl,
      rfl, rfl, rfl, (sameMemoriesAndFetch_stepTwoWrite _ s).complete⟩

/-- Settles O19: step 2 latches the address, and step 3 moves the program counter where the gate is open. -/
theorem jumpTakesTargetFromRam : Obligations.JumpTakesTargetFromRam := by
  intro c a s hs
  by_cases hc : s.applies c
  · exact ⟨_, exec_taken hs (i := .jump c a) nofun hc, rfl, fun _ => rfl, fun h => absurd hc h,
      sameRegs_of_eq rfl rfl rfl rfl, ⟨rfl, rfl⟩, rfl,
      (sameMemoriesAndFetch_takenWrites (i := .jump c a) nofun nofun s).complete⟩
  · exact ⟨_, exec_gated hs (i := .jump c a) hc, rfl, fun h => absurd h hc, fun _ => rfl,
      sameRegs_stepTwoWrite (.jump c a) s, ⟨rfl, rfl⟩, rfl, (sameMemoriesAndFetch_stepTwoWrite _ s).complete⟩

/-- Settles O20: step 3 moves the program counter where the gate is open. -/
theorem jumpImmediateTakesPayload : Obligations.JumpImmediateTakesPayload := by
  intro c target s hs
  by_cases hc : s.applies c
  · exact ⟨_, exec_taken hs (i := .jumpImmediate c target) nofun hc, rfl, fun _ => rfl, fun h => absurd hc h,
      sameRegs_of_eq rfl rfl rfl rfl, ⟨rfl, rfl⟩, rfl,
      (sameMemoriesAndFetch_takenWrites (i := .jumpImmediate c target) nofun nofun s).complete⟩
  · exact ⟨_, exec_gated hs (i := .jumpImmediate c target) hc, rfl, fun h => absurd h hc, fun _ => rfl,
      sameRegs_stepTwoWrite (.jumpImmediate c target) s, ⟨rfl, rfl⟩, rfl,
      (sameMemoriesAndFetch_stepTwoWrite _ s).complete⟩

/-- Settles O21: step 3 copies the register where the gate is open. -/
theorem outCopiesRegister : Obligations.OutCopiesRegister := by
  intro r c s hs
  by_cases hc : s.applies c
  · exact ⟨_, exec_taken hs (i := .out r c) nofun hc, fun _ => rfl, fun h => absurd hc h,
      sameRegs_of_eq rfl rfl rfl rfl, ⟨rfl, rfl⟩, rfl, rfl,
      (sameMemoriesAndFetch_takenWrites (i := .out r c) nofun nofun s).complete⟩
  · exact ⟨_, exec_gated hs (i := .out r c) hc, fun h => absurd h hc, fun _ => rfl,
      sameRegs_stepTwoWrite (.out r c) s, ⟨rfl, rfl⟩, rfl, rfl, (sameMemoriesAndFetch_stepTwoWrite _ s).complete⟩

/-- Settles O22: with the gate open the machine stops, with the gate closed the instruction ends. -/
theorem haltStopsTheMachine : Obligations.HaltStopsTheMachine := by
  intro c s hs
  by_cases hc : s.applies c
  · have hlines : Lines.halting.asserted = [.halt] := by decide
    exact ⟨s.stop, exec_halt_taken hs hc, fun _ => ⟨rfl, rfl, hlines, rfl, rfl⟩, fun h => absurd hc h,
      sameRegs_of_eq rfl rfl rfl rfl, ⟨rfl, rfl⟩, rfl, rfl, rfl, fun _ => rfl, ⟨fun _ => rfl, rfl⟩, fun _ => rfl⟩
  · exact ⟨_, exec_gated hs (i := .halt c) hc, fun h => absurd h hc, fun _ => endsInstruction_complete rfl rfl rfl,
      sameRegs_of_eq rfl rfl rfl rfl, ⟨rfl, rfl⟩, rfl, rfl, rfl,
      (sameMemoriesAndFetch_stepTwoWrite (.halt c) s).memories⟩

end Sys2Proof.Proofs
end

section
/-! PROOFS. A step from an instruction boundary, what it can change, and what it does not read (40_sequencer.md R103,
R104, R113; 60_exceptions.md R209). -/

namespace Sys2Proof.Machine

/-! ### The fetch from a boundary -/

/-- The instruction fetched at a boundary is that of the two ROM bytes at the program counter. -/
theorem State.current_fetch {s : State} (hs : s.stepCounter = .s0) :
    s.fetch.current = decode (s.romRead (romAddress false s.pc)) (s.romRead (romAddress true s.pc)) := by
  rw [State.fetch_at_boundary hs]
  rfl

/-- What the fetch from a boundary does, and its frame. -/
theorem State.fetch_effect {s : State} (hs : s.stepCounter = .s0) :
    s.fetch.stepCounter = .s2 ∧ s.fetch.romAddr = s.pc ∧ s.fetch.ir = s.romRead (romAddress false s.pc) ∧
    s.fetch.pc = s.pc + 1#8 ∧ s.fetch.finished = s.finished ∧ sameRegs s s.fetch ∧ sameFlags s s.fetch ∧
    s.fetch.ramAddr = s.ramAddr ∧ s.fetch.dec = s.dec ∧ sameRam s s.fetch ∧ sameIo s s.fetch ∧ sameRom s s.fetch := by
  rw [State.fetch_at_boundary hs]
  exact ⟨rfl, rfl, rfl, rfl, rfl, sameRegs_of_eq rfl rfl rfl rfl, ⟨rfl, rfl⟩, rfl, rfl, fun _ => rfl,
    ⟨fun _ => rfl, rfl⟩, fun _ => rfl⟩

theorem State.fetch_overflow (s : State) : s.fetch.overflow = s.overflow := by
  unfold State.fetch
  cases s.stepCounter <;> rfl

theorem State.fetch_zero (s : State) : s.fetch.zero = s.zero := by
  unfold State.fetch
  cases s.stepCounter <;> rfl

theorem State.fetch_memRead (s : State) (x : Byte) : s.fetch.memRead x = s.memRead x := by
  unfold State.fetch
  cases s.stepCounter <;> rfl

theorem step_of_nextIs {s : State} {i : Instr} (hn : s.nextIs i) : step s = exec i s.fetch := by
  obtain ⟨hf, hs, hd⟩ := hn
  rw [step_eq_stepWith, stepWith_of_current params hf ((State.current_fetch hs).trans hd), execWith_params]

/-! ### What a step can do -/

/-- A step from a boundary: with the gate open the writes of the instruction or the stop of a halt, with the gate closed
the write of its step 2 alone. -/
theorem step_cases {s t : State} {i : Instr} (hn : s.nextIs i) (h : step s = .next t) :
    (s.applies i.condition ∧ i.operation ≠ .halt ∧ t = (takenWrites i s.fetch).complete) ∨
    (s.applies i.condition ∧ i.operation = .halt ∧ t = s.fetch.stop) ∨
    (¬ s.applies i.condition ∧ t = (stepTwoWrite i s.fetch).complete) := by
  rw [step_of_nextIs hn] at h
  obtain ⟨-, hs, -⟩ := hn
  obtain ⟨hs2, -⟩ := State.fetch_effect hs
  have happ : s.fetch.applies i.condition ↔ s.applies i.condition := by rw [State.applies, State.fetch_overflow]
  by_cases hc : s.applies i.condition
  · by_cases hi : i.operation = .halt
    · cases i with
      | halt c =>
        rw [exec_halt_taken (c := c) hs2 (happ.mpr hc)] at h
        cases h
        exact .inr (.inl ⟨hc, rfl, rfl⟩)
      | _ => cases hi
    · rw [exec_taken hs2 hi (happ.mpr hc)] at h
      cases h
      exact .inl ⟨hc, hi, rfl⟩
  · rw [exec_gated hs2 (mt happ.mp hc)] at h
    cases h
    exact .inr (.inr ⟨hc, rfl⟩)

theorem sameFlags_stepTwoWrite (i : Instr) (s : State) : sameFlags s (stepTwoWrite i s) := by
  cases i <;> exact ⟨rfl, rfl⟩

theorem stepTwoWrite_pc (i : Instr) (s : State) : (stepTwoWrite i s).pc = s.pc := by
  cases i <;> rfl

/-- A taken instruction changes RAM only as a store, at its own address. -/
theorem takenWrites_memRead {i : Instr} (hi : i.operation ≠ .halt) {s : State} {x : Byte}
    (h : (takenWrites i s).memRead x ≠ s.memRead x) : ∃ r c, i = .store r c x := by
  by_cases hst : i.operation = .store
  · cases i with
    | store r c a =>
      have hread : (takenWrites (.store r c a) s).memRead x =
          if x = a then { s with ramAddr := a }.reg r else s.memRead x :=
        State.memRead_memWriteWith params { s with ramAddr := a } a _ x
      by_cases hx : x = a
      · exact ⟨r, c, by rw [hx]⟩
      · exact absurd (hread.trans (if_neg hx)) h
    | _ => cases hst
  · exact absurd ((sameMemoriesAndFetch_takenWrites hst hi s).memories.1 x) h

/-! ### Invalid opcodes at a boundary -/

/-- The opcodes 11 to 14 do not decode. -/
theorem decode_of_reserved {u : Byte} (h11 : 11 ≤ u.toNat / 16) (h14 : u.toNat / 16 ≤ 14) (l : Byte) :
    decode u l = .error .invalidMachineCode := by
  rw [decode_eq_error_iff, Operation.ofCode_eq_none_iff, opcodeField_toNat]
  exact ⟨h11, h14⟩

/-! ### The output devices are not read (60_exceptions.md R209) -/

/-- The second state is the first but for the IO array, its address register and the decimal output. -/
def EqualButOutputs (s u : State) : Prop := ∃ io ioAddr dec, u = { s with io := io, ioAddr := ioAddr, dec := dec }

theorem EqualButOutputs.agreeOnReads {s u : State} (h : EqualButOutputs s u) : AgreeOnReads s u := by
  obtain ⟨io, ioAddr, dec, rfl⟩ := h
  exact ⟨rfl, rfl, rfl, rfl, sameRegs_of_eq rfl rfl rfl rfl, rfl, rfl, rfl, rfl⟩

theorem EqualButOutputs.setReg {s u : State} (r : Reg) (v : Byte) (h : EqualButOutputs s u) :
    EqualButOutputs (s.setReg r v) (u.setReg r v) := by
  obtain ⟨io, ioAddr, dec, rfl⟩ := h
  exact ⟨io, ioAddr, dec, by cases r <;> rfl⟩

/-- A RAM write writes the same RAM byte in both, and at most the outputs besides. -/
theorem EqualButOutputs.memWriteWith {s u : State} (p : Config.Params) (a v : Byte) (h : EqualButOutputs s u) :
    EqualButOutputs (s.memWriteWith p a v) (u.memWriteWith p a v) := by
  obtain ⟨io, ioAddr, dec, rfl⟩ := h
  unfold State.memWriteWith
  cases ioIndex p a with
  | none => exact ⟨io, ioAddr, dec, rfl⟩
  | some j => exact ⟨io.write j.toNat v, j, dec, rfl⟩

theorem EqualButOutputs.relatedByExecute (p : Config.Params) : RelatedByExecute p EqualButOutputs where
  agree := EqualButOutputs.agreeOnReads
  ramAddr := fun _ ⟨io, ioAddr, dec, e⟩ => ⟨io, ioAddr, dec, by rw [e]⟩
  reg := EqualButOutputs.setReg
  memWrite := EqualButOutputs.memWriteWith p
  alu := fun _ ⟨io, ioAddr, dec, e⟩ => ⟨io, ioAddr, dec, by rw [e]; rfl⟩
  pc := fun _ ⟨io, ioAddr, dec, e⟩ => ⟨io, ioAddr, dec, by rw [e]⟩
  dec := fun v ⟨io, ioAddr, _, e⟩ => ⟨io, ioAddr, v, by rw [e]⟩
  complete := fun ⟨io, ioAddr, dec, e⟩ => ⟨io, ioAddr, dec, by rw [e]; rfl⟩
  stop := fun ⟨io, ioAddr, dec, e⟩ => ⟨io, ioAddr, dec, by rw [e]; rfl⟩

theorem EqualButOutputs.relatedByFetch : RelatedByFetch EqualButOutputs where
  fetchAddress := fun ⟨io, ioAddr, dec, e⟩ => ⟨io, ioAddr, dec, by rw [e]; rfl⟩
  fetchUpper := fun ⟨io, ioAddr, dec, e⟩ => ⟨io, ioAddr, dec, by rw [e]; rfl⟩

end Sys2Proof.Machine

namespace Sys2Proof.Proofs
open Sys2Proof Sys2Proof.Machine

/-- Settles O23, from the effect of the fetch and the instruction it fetches. -/
theorem stepRunsTheDecodedInstruction : Obligations.StepRunsTheDecodedInstruction :=
  fun _ _ hn => ⟨step_of_nextIs hn, State.fetch_effect hn.2.1⟩

/-- Settles O27: after the fetch the step counter is 2, where the policy decides. -/
theorem invalidOpcodeFollowsThePolicy : Obligations.InvalidOpcodeFollowsThePolicy := by
  intro p s hf hs h11 h14
  have hc : s.fetch.current = .error .invalidMachineCode :=
    (State.current_fetch hs).trans (decode_of_reserved h11 h14 _)
  obtain ⟨hs2, hromAddr, hir, hpc, hfin, hregs, hflags, hramAddr, hdec, hram, hio, hrom⟩ := State.fetch_effect hs
  rw [stepWith_of_invalid p hf hc]
  refine ⟨fun hp => ?_, fun hp => ?_⟩
  · exact invalidOpcodeWith_of_fault (by simp [invalidOpcodeFault, hp, hs2, hromAddr])
  · refine ⟨s.fetch.complete, invalidOpcodeWith_of_none (by simp [invalidOpcodeFault, hp]), hfin.trans hf, rfl, rfl,
      hpc, hromAddr, hir, fun q => ?_, hflags, hramAddr, hdec, hram, hio, hrom⟩
    rw [State.complete_reg, hregs]

/-- Settles O43: with the gate closed, and in a halt, RAM is as it was. -/
theorem onlyStoreWritesRam : Obligations.OnlyStoreWritesRam := by
  intro s t i x hn h hx
  rw [← s.fetch_memRead x] at hx
  rcases step_cases hn h with ⟨hc, hi, rfl⟩ | ⟨-, -, rfl⟩ | ⟨-, rfl⟩
  · obtain ⟨r, c, rfl⟩ := takenWrites_memRead hi hx
    exact ⟨r, c, rfl, hc⟩
  · exact absurd rfl hx
  · exact absurd ((sameMemoriesAndFetch_stepTwoWrite i s.fetch).memories.1 x) hx

/-- Settles O44: with the gate closed, and in a halt, the flags are as they were. -/
theorem onlyAluOperationsWriteFlags : Obligations.OnlyAluOperationsWriteFlags := by
  intro s t i hn h hflags
  have hfetch : ¬ sameFlags s.fetch t := by rwa [sameFlags, s.fetch_overflow, s.fetch_zero]
  rcases step_cases hn h with ⟨hc, -, rfl⟩ | ⟨-, -, rfl⟩ | ⟨-, rfl⟩
  · exact ⟨not_not.mp fun hi => hfetch (sameFlags_takenWrites hi s.fetch), hc⟩
  · exact absurd ⟨rfl, rfl⟩ hfetch
  · exact absurd (sameFlags_stepTwoWrite i s.fetch) hfetch

/-- Settles O45: the fetch moves the program counter on, and after it only a taken jump writes it. -/
theorem sequentialUnlessJumpTaken : Obligations.SequentialUnlessJumpTaken := by
  intro s t i hn h
  have hs : s.stepCounter = .s0 := hn.2.1
  obtain ⟨-, -, -, hpc, -⟩ := State.fetch_effect hs
  have hnext : t.pc = s.fetch.pc → t.pc.toNat = (s.pc.toNat + 1) % 256 := fun e => by
    rw [e, hpc]
    exact BitVec.toNat_add s.pc 1#8
  rcases step_cases hn h with ⟨hc, -, rfl⟩ | ⟨-, -, rfl⟩ | ⟨-, rfl⟩
  · by_cases hi : i.operation ∈ [Operation.jump, .jumpImmediate]
    · exact .inr ⟨hi, hc⟩
    · exact .inl (hnext (takenWrites_pc hi s.fetch))
  · exact .inl (hnext rfl)
  · exact .inl (hnext (stepTwoWrite_pc i s.fetch))

/-- Settles O47: no write of a step takes a value from the outputs, so that two states equal but for them stay so. -/
theorem outputDevicesAreNeverRead : Obligations.OutputDevicesAreNeverRead := by
  intro p s t io ioAddr dec h
  obtain ⟨_, hv, io', ioAddr', dec', rfl⟩ :=
    (EqualButOutputs.relatedByExecute p).stepWith EqualButOutputs.relatedByFetch ⟨io, ioAddr, dec, rfl⟩ h
  exact ⟨io', ioAddr', dec', hv⟩

end Sys2Proof.Proofs
end

section
/-! PROOFS. The control lines and their packing, the ROM image and what is fetched of it, and the snapshot (10_state.md
R36 to R40; 20_memory.md R62, R63; 70_reset_and_hazards.md R221, R222). -/

namespace Sys2Proof.Machine

/-! ### Lines and their pins -/

theorem mem_allLines (l : Line) : l ∈ allLines := by
  cases l <;> decide

theorem Line.pin_range (l : Line) : 1 ≤ l.pin ∧ l.pin ≤ 24 := by
  cases l <;> decide

/-- A pin is the position of its line in `allLines`, so that no two lines share one. -/
theorem allLines_getElem?_pin (l : Line) : allLines[l.pin - 1]? = some l := by
  cases l <;> rfl

theorem Line.pin_injective {l l' : Line} (h : l.pin = l'.pin) : l = l' := by
  have hl := allLines_getElem?_pin l
  rw [h, allLines_getElem?_pin l'] at hl
  exact (Option.some.inj hl).symm

/-- The mask of a line has the bit of its own pin and no other's (10_state.md R38). -/
theorem Line.mask_getLsbD_pin (l l' : Line) : l'.mask.getLsbD (24 - l.pin) = decide (l' = l) := by
  have hl := l.pin_range
  have hl' := l'.pin_range
  by_cases h : l' = l
  · subst h
    simp [Line.mask]
    omega
  · have hne : l'.pin ≠ l.pin := fun e => h (Line.pin_injective e)
    simp [Line.mask, h]
    omega

/-- A bit of an OR of masks is a bit of one of them. -/
theorem getLsbD_foldr_mask (ls : List Line) (n : Nat) :
    (ls.foldr (fun l w => l.mask ||| w) 0#24).getLsbD n = ls.any fun l => l.mask.getLsbD n := by
  induction ls with
  | nil => simp
  | cons l ls ih => simp [ih]

theorem Lines.mem_asserted (ls : Lines) (l : Line) : l ∈ ls.asserted ↔ ls.get l = true := by
  simp [Lines.asserted, mem_allLines]

/-- The classes are three: a line in neither of the first two is a modifier (10_state.md R37). -/
theorem Line.lineClass_modifier_iff (l : Line) :
    l.lineClass = .modifier ↔ l.isInputLine = false ∧ l.isOutputLine = false := by
  unfold Line.isInputLine Line.isOutputLine
  cases l.lineClass <;> decide

/-! ### What a program's ROM image holds -/

/-- The ROM image from index `k` on holds the two bytes of each instruction in its two banks, and of `noOp`, which are
0, past the end (20_memory.md R63). -/
theorem romImageFrom_read (q : Program) (k m : Nat) (h : k + m < 256) :
    (romImageFrom k q).read (k + m) = (encode ((q[m]?).getD (.noOp .noCondition))).1 ∧
    (romImageFrom k q).read (256 + (k + m)) = (encode ((q[m]?).getD (.noOp .noCondition))).2 := by
  induction q generalizing k m with
  | nil =>
    rw [List.getElem?_nil]
    exact ⟨rfl, rfl⟩
  | cons i rest ih =>
    have hread (b : Nat) : (romImageFrom k (i :: rest)).read b =
        if b = 256 + k then (encode i).2 else if b = k then (encode i).1 else (romImageFrom (k + 1) rest).read b := by
      rw [romImageFrom, Memory.read_write, Memory.read_write]
    cases m with
    | zero => exact ⟨by rw [hread, if_neg (by omega), if_pos (by omega)]; rfl, by rw [hread, if_pos (by omega)]; rfl⟩
    | succ m =>
      obtain ⟨hupper, hlower⟩ := ih (k + 1) m (by omega)
      rw [Nat.add_right_comm, Nat.add_assoc] at hupper hlower
      refine ⟨?_, ?_⟩
      · rw [hread, if_neg (by omega), if_neg (by omega), hupper]
        rfl
      · rw [hread, if_neg (by omega), if_neg (by omega), hlower]
        rfl

/-! ### A placed word -/

/-- The two bytes of a placed word are in its two banks (20_memory.md R62). -/
theorem placeWord_read (rom : Memory) (k u l : Byte) :
    (placeWord rom k u l).read (romAddress false k).toNat = u ∧
    (placeWord rom k u l).read (romAddress true k).toNat = l := by
  have hne : (romAddress false k).toNat ≠ (romAddress true k).toNat := by
    rw [romAddress_toNat, romAddress_toNat]
    simp
  exact ⟨(Memory.read_write_other _ hne l).trans (Memory.read_write_same _ _ u), Memory.read_write_same _ _ l⟩

theorem decodeTableWord_eq_some {nbits w : Nat} {i : Instr} (h : decodeTableWord nbits w = some i) :
    decode ((BitVec.ofNat 16 (w % 2 ^ nbits)).extractLsb' 8 8) ((BitVec.ofNat 16 (w % 2 ^ nbits)).extractLsb' 0 8) =
      .ok i := by
  unfold decodeTableWord at h
  dsimp only at h
  split at h
  · next hd =>
    cases h
    exact hd
  · cases h

end Sys2Proof.Machine

namespace Sys2Proof.Proofs
open Sys2Proof Sys2Proof.Machine

/-- Settles O52: a bit of the control word is that of an asserted line's mask, and only the line's own mask has it. -/
theorem controlWordPacksTheLines : Obligations.ControlWordPacksTheLines := by
  intro ls l
  rw [Lines.controlWord, getLsbD_foldr_mask, Bool.eq_iff_iff, List.any_eq_true, ← ls.mem_asserted]
  simp only [Line.mask_getLsbD_pin, decide_eq_true_eq, exists_eq_right]

/-- Settles O53: pins by evaluation, classes line by line. -/
theorem linesHavePinsAndClasses : Obligations.LinesHavePinsAndClasses :=
  ⟨rfl, rfl, mem_allLines, fun l => by cases l <;> decide, fun l => by cases l <;> decide, rfl, rfl,
    fun l => by cases l <;> decide, Line.lineClass_modifier_iff⟩

/-- Settles O49, from what `load` can do; the fresh state's memories list nothing. -/
theorem loadBuildsTheFreshState : Obligations.LoadBuildsTheFreshState := by
  intro q s
  rcases hostLoad_cases q s with ⟨hle, e⟩ | ⟨hlt, e⟩
  · refine ⟨fun _ => ⟨_, e, rfl, rfl, fun r => ?_, rfl, rfl, rfl, rfl, rfl, rfl, fun _ => rfl, rfl, rfl, fun _ => rfl,
      rfl, (by decide : Lines.off.asserted = []), rfl⟩, fun h => absurd hle (by omega)⟩
    cases r <;> rfl
  · exact ⟨fun h => absurd hlt (by omega), fun _ => e⟩

/-- Settles O50: the fetched bytes are those of an encoding, which decodes to its instruction. -/
theorem loadedProgramIsFetched : Obligations.LoadedProgramIsFetched := by
  intro q s _ hrom hs
  obtain ⟨hupper, hlower⟩ := romImageFrom_read q 0 s.pc.toNat (by simpa using s.pc.isLt)
  rw [Nat.zero_add] at hupper hlower
  have hu : s.romRead (romAddress false s.pc) = (encode ((q[s.pc.toNat]?).getD (.noOp .noCondition))).1 := by
    rw [← hupper, State.romRead, hrom, romAddress_toNat]
    simp [romImage]
  have hl : s.romRead (romAddress true s.pc) = (encode ((q[s.pc.toNat]?).getD (.noOp .noCondition))).2 := by
    rw [← hlower, State.romRead, hrom, romAddress_toNat]
    simp [romImage]
  rw [State.current_fetch hs, hu, hl, decode_encode]

/-- Settles O51: the next fetch reads the placed bytes, which are those the table word decodes from. -/
theorem placedWordIsFetched : Obligations.PlacedWordIsFetched := by
  intro s w i h
  obtain ⟨hu, hl⟩ := placeWord_read s.rom s.pc ((BitVec.ofNat 16 (w % 2 ^ 16)).extractLsb' 8 8)
    ((BitVec.ofNat 16 (w % 2 ^ 16)).extractLsb' 0 8)
  exact ⟨rfl, rfl, (congrArg₂ decode hu hl).trans (decodeTableWord_eq_some h)⟩

/-- Settles O54: the untruncated result modulo 256, and the addresses of the two ROM banks. -/
theorem snapshotValuesAreDerived : Obligations.SnapshotValuesAreDerived := by
  intro s
  refine ⟨?_, rfl, ?_, rfl⟩
  · exact trunc8_toNat (aluRaw s.r1 s.r2 s.lines.aluNegate)
  · rw [State.romValue, State.romRead, romAddress_toNat]

end Sys2Proof.Proofs
end
